-- ==== Sys2Proof/Word.lean ====
section
/-! DEFINITION. The words of the base-48 codec block: the widths of rule R7 (every value is an
unsigned integer) and of the command bit (rule R60). -/

namespace Sys2Proof

/-- One bit: `CMD.DIR`, `RES.VALID`, `RES.DIR` (rules R22, R26). -/
abbrev Bit := BitVec 1

/-- A byte element, `b[7:0]` (rule R62). -/
abbrev Byte := BitVec 8

/-- A nibble, 0 to 15 (rule R7): an index of the Padding Alphabet. -/
abbrev Nibble := BitVec 4

/-- A 6-bit digit field (rule R7). The legal digits are 0 to 47; 48 to 63 address no ROM entry
(rule R40). -/
abbrev Digit := BitVec 6

/-- A code point element, `cp[20:0]` (rule R61). Every 21-bit value is a legal element. -/
abbrev CodePoint := BitVec 21

/-- The 16-bit pair value of ENCODE (rule R67). -/
abbrev PairValue := BitVec 16

/-- The 11-bit quotient `v div 48` of ENCODE (rule R31). -/
abbrev Quotient := BitVec 11

/-- The 17-bit triplet value of DECODE (rule R67). -/
abbrev TripletValue := BitVec 17

end Sys2Proof
end

