-- ==== Sys2Proof/Config.lean ====
section
/-! DEFINITION. What one realisation of the block fixes: the whitespace set the source gives (rule
R6), the parameters it leaves open (rule R5), the conditions W1 to W5 every alphabet must satisfy
(rule R85), and the refusal of a parameter set that breaks one of them. The source's other constants
(the radices 48 and 16, the run length 47) stand as the numerals with which the rules write them. -/

namespace Sys2Proof

/-- The whitespace set, exactly space, tab, newline and carriage return (rules R6, R84). -/
def Config.whitespaceSet : List CodePoint := [0x20#21, 0x09#21, 0x0A#21, 0x0D#21]

/-- `IDX_W`: the least `w` with `2^w > MAX_DEC_CPS` (rule R5, decision D14). -/
def Config.idxW (maxDecCps : Nat) : Nat := if maxDecCps = 0 then 0 else Nat.log2 maxDecCps + 1

/-- The three code-point parameters of the Alphabet Table (rule R5). -/
structure Alphabet where
  /-- `PRIMARY_BASE`: the first code point of the 47-long run. -/
  primaryBase : CodePoint
  /-- `PRIMARY_EXTRA`: the 48th Primary code point. -/
  primaryExtra : CodePoint
  /-- `PAD_BASE`: the first code point of the 16-long Padding run. -/
  padBase : CodePoint
deriving DecidableEq, Repr

/-- `c` lies in the 47-long run `[PRIMARY_BASE, PRIMARY_BASE + 46]` (rule R40). -/
abbrev Alphabet.InRun (a : Alphabet) (c : CodePoint) : Prop :=
  a.primaryBase.toNat ≤ c.toNat ∧ c.toNat ≤ a.primaryBase.toNat + 46

/-- `c` is one of the 48 Primary code points (rule R40). -/
abbrev Alphabet.IsPrimary (a : Alphabet) (c : CodePoint) : Prop :=
  a.InRun c ∨ c = a.primaryExtra

/-- `c` lies in the Padding run `[PAD_BASE, PAD_BASE + 15]` (rule R41). -/
abbrev Alphabet.IsPadding (a : Alphabet) (c : CodePoint) : Prop :=
  a.padBase.toNat ≤ c.toNat ∧ c.toNat ≤ a.padBase.toNat + 15

/-- (W1) of rule R85: the 47-long run consists of code points. -/
abbrev Alphabet.W1 (a : Alphabet) : Prop := a.primaryBase.toNat + 46 ≤ 0x10FFFF

/-- (W2) of rule R85: the extra point is a code point outside the run. -/
abbrev Alphabet.W2 (a : Alphabet) : Prop :=
  a.primaryExtra.toNat ≤ 0x10FFFF ∧ ¬ a.InRun a.primaryExtra

/-- (W3) of rule R85: the Padding run consists of code points and holds no Primary one. -/
abbrev Alphabet.W3 (a : Alphabet) : Prop :=
  a.padBase.toNat + 15 ≤ 0x10FFFF ∧
  (a.padBase.toNat + 15 < a.primaryBase.toNat ∨ a.primaryBase.toNat + 46 < a.padBase.toNat) ∧
  ¬ a.IsPadding a.primaryExtra

/-- (W4) of rule R85: no alphabet code point is whitespace. -/
abbrev Alphabet.W4 (a : Alphabet) : Prop :=
  (Config.whitespaceSet.all fun c => decide (¬ a.IsPrimary c ∧ ¬ a.IsPadding c)) = true

/-- (W5) of rule R85: no alphabet code point is a surrogate, U+D800 to U+DFFF. -/
abbrev Alphabet.W5 (a : Alphabet) : Prop :=
  (a.primaryBase.toNat + 46 < 0xD800 ∨ 0xDFFF < a.primaryBase.toNat) ∧
  (a.primaryExtra.toNat < 0xD800 ∨ 0xDFFF < a.primaryExtra.toNat) ∧
  (a.padBase.toNat + 15 < 0xD800 ∨ 0xDFFF < a.padBase.toNat)

/-- Every condition of rule R85. -/
abbrev Alphabet.Wf (a : Alphabet) : Prop := a.W1 ∧ a.W2 ∧ a.W3 ∧ a.W4 ∧ a.W5

/-- A parameter set of the hardware (rule R5). It carries the proof of rule R85, so a set that breaks
a condition describes no machine of this model. The field defaults are the illustrative set of
`95_test_vectors.md`; they serve only to show that the type is inhabited, and no definition of the
machine reads them. -/
structure Params where
  alphabet : Alphabet := ⟨0x0100#21, 0x0180#21, 0x0200#21⟩
  /-- `MAX_ENC_BYTES`: the largest ENCODE input, in bytes. -/
  maxEncBytes : Nat := 0
  /-- `MAX_DEC_CPS`: the largest DECODE input, in code points. -/
  maxDecCps : Nat := 0
  ok : alphabet.Wf := by decide
deriving DecidableEq, Repr, Inhabited

/-- The condition of rule R85 for which a parameter set is refused. -/
inductive ParamError where
  /-- The run leaves the code-point range. -/
  | w1
  /-- The extra point is no code point, or lies in the run. -/
  | w2
  /-- The Padding run leaves the code-point range, or meets the Primary Alphabet. -/
  | w3
  /-- An alphabet code point is whitespace. -/
  | w4
  /-- An alphabet code point is a surrogate. -/
  | w5
deriving DecidableEq, Repr

/-- Accepts a parameter set, or refuses it by the first condition of rule R85 that it breaks. -/
def Params.make (a : Alphabet) (maxEncBytes maxDecCps : Nat) : Except ParamError Params :=
  if h1 : a.W1 then
    if h2 : a.W2 then
      if h3 : a.W3 then
        if h4 : a.W4 then
          if h5 : a.W5 then
            .ok ⟨a, maxEncBytes, maxDecCps, h1, h2, h3, h4, h5⟩
          else .error .w5
        else .error .w4
      else .error .w3
    else .error .w2
  else .error .w1

/-- The parameters of THE hardware after reset: some set that satisfies rule R85. The source gives no
code point and no capacity (decisions D4 and D5 leave them OPEN), so nothing in Lean can evaluate
them. -/
opaque Config.params : Params

end Sys2Proof
end

