-- ==== Sys2Proof/Syntax.lean ====
section
/-! DEFINITION. The commands of the block: the element sequences, the command as it crosses the
interface (rule R22), the instructions of the opcode table with their operands (rule R60), and the
textual form of rule R70. -/

namespace Sys2Proof

/-- A sequence of elements, as it crosses the interface: bytes (rule R62) or code points (rule R61).
The input `IN` and the output `OUT` of a command are such sequences (rules R22, R26). -/
inductive Elems where
  | bytes (xs : List Byte)
  | codePoints (xs : List CodePoint)
deriving DecidableEq, Repr

/-- A command as the collaborator issues it: the command word `DIR` and the input `IN`, taken as one
value (rules R22, R24). -/
structure Command where
  dir : Bit
  input : Elems
deriving DecidableEq, Repr

/-- The instructions: one constructor per row of the opcode table, with its operand `IN`. -/
inductive Instr where
  /-- `ENCODE` (`DIR = 0`): bytes to text (rule R90). -/
  | encode (input : List Byte)
  /-- `DECODE` (`DIR = 1`): text to bytes, or an error (rule R100). -/
  | decode (input : List CodePoint)
deriving DecidableEq, Repr

/-- One element of a `DECODE [e0, e1, ...]` of the textual form (rule R70). -/
inductive TextElem where
  /-- `P(d)`, which is `ROM[d]`. -/
  | P (d : Digit)
  /-- `Q(n)`, which is `PAD_BASE + n`. -/
  | Q (n : Nibble)
  | SP
  | TAB
  | LF
  | CR
  /-- `U+XXXX`: any code point, by its value. -/
  | U (c : CodePoint)
deriving DecidableEq, Repr

/-- One command of a program in the textual form (rule R70). -/
inductive TextCommand where
  | ENCODE (bytes : List Byte)
  | DECODE (elems : List TextElem)
deriving DecidableEq, Repr

end Sys2Proof
end

