-- ==== Sys2Proof/WellFormed.lean ====
section
/-! DEFINITION. What makes a command and an instruction well formed: the input has the element type
its direction selects (rule R22), and its length is within the capacity (rule R23). The conditions on
the parameters (rule R85) stand in Config.lean, in the type `Params` itself. -/

namespace Sys2Proof

/-- The input of a command has the element type its `DIR` selects: bytes for 0, code points for 1
(rules R22, R60). -/
def Command.wf (c : Command) : Bool :=
  match c.input with
  | .bytes _ => c.dir == 0
  | .codePoints _ => c.dir == 1

/-- An instruction is well formed for a parameter set when its input fits the capacity: such a command
is admitted, and every other one is refused (rule R23). -/
def Instr.wf (p : Params) : Instr → Bool
  | .encode input => decide (input.length ≤ p.maxEncBytes)
  | .decode input => decide (input.length ≤ p.maxDecCps)

end Sys2Proof
end

