-- ==== Sys2Proof/Decode.lean ====
section
/-! DEFINITION. The command decoder (rule R60), total on every command, and after it the encoder, both
written from the table of rule R60; and the two together on a word of the opcode table. -/

namespace Sys2Proof

/-- Why a command is rejected. -/
inductive DecodeError where
  /-- `IN` does not have the element type that `DIR` selects (rule R22). -/
  | elementType
deriving DecidableEq, Repr

/-- The decoder: `DIR = 0` selects ENCODE, whose input is bytes, and `DIR = 1` selects DECODE, whose
input is code points (rules R22, R60). No value of `DIR` is illegal or reserved. -/
def decodeCommand (c : Command) : Except DecodeError Instr :=
  if c.dir = 0 then
    match c.input with
    | .bytes xs => .ok (.encode xs)
    | .codePoints _ => .error .elementType
  else
    match c.input with
    | .codePoints xs => .ok (.decode xs)
    | .bytes _ => .error .elementType

/-- The encoder: the command word and the input of an instruction (rules R22, R60). -/
def encodeCommand : Instr → Command
  | .encode xs => ⟨0, .bytes xs⟩
  | .decode xs => ⟨1, .codePoints xs⟩

/-- The command whose word is the low `nbits` bits of `w`: the word is the one bit `DIR`, bit 0 (rule
R60), so the other bits of the table's whole bytes carry nothing. The table gives `IN` no bits, so
`IN` is the empty sequence of the element type that `DIR` selects. -/
def commandOfWord (nbits w : Nat) : Command :=
  if w % 2 ^ nbits % 2 = 0 then ⟨0, .bytes []⟩ else ⟨1, .codePoints []⟩

/-- The instruction the decoder reads from a word numbered as the opcode table numbers it. -/
def decodeTableWord (nbits w : Nat) : Option Instr :=
  match decodeCommand (commandOfWord nbits w) with
  | .ok i => some i
  | .error _ => none

end Sys2Proof
end

