-- ==== Sys2Proof/Machine/State.lean ====
section
/-! DEFINITION. The state of the block (`10_state.md`), the ways a step can stop, and the state after
reset (rule R141). -/

namespace Sys2Proof.Machine

/-- What a model of the block faults on (`93_implementation_defined.md` I2 to I4). None of them is an
event of the hardware. -/
inductive Fault where
  /-- A ROM read at an address 48 to 63 (rule R40, I3). Raised by `romRead`. Safe: the machine stops
  in a state the hardware never enters. -/
  | romAddress
  /-- A read of a sequence at an index outside it (rule R44, I4). Raised by `readElem`. Safe: the
  machine stops in a state the hardware never enters. -/
  | inputIndex
  /-- `RES.KIND` holds 5, 6 or 7 (rules R64 and R68, I2). Raised by the collaborator's read
  `readKind`, never by a command. Safe: no state of the hardware holds such a value. -/
  | reservedKind
deriving DecidableEq, Repr

/-- Why a command does not run. -/
inductive Refusal where
  /-- The instruction named by its mnemonic has no meaning in this model yet. Raised by `exec`'s
  refused arms only. Safe. -/
  | notModelled (mnemonic : String)
  /-- The input is longer than the capacity: the command is not admitted, does not run and leaves
  `RES` unchanged (rule R23, I6). Raised by `execEncode` and `execDecode`. Safe: a refused command
  has no result. -/
  | overCapacity
  /-- `IN` does not have the element type that `DIR` selects, so the pair is no command of rule R22.
  Raised by `step` when the decoder rejects. Safe. -/
  | malformedCommand
deriving DecidableEq, Repr

/-- The class of a code point with its payload (rules R63, R83). -/
inductive Class where
  | whitespace
  | padding (nibble : Nibble)
  | primary (digit : Digit)
  | invalid
deriving DecidableEq, Repr

/-- The status kinds of `RES.KIND` by their names (rule R64). -/
inductive Kind where
  | ok
  | invalidCharacter
  | invalidLength
  | valueOutOfRange
  | invalidPadding
deriving DecidableEq, Repr

/-- A decode error with its detail: the `K(info)` of `fail K(info)` (rules R121, R122). -/
inductive DecodeFail where
  | invalidCharacter (cp : CodePoint) (index : Nat)
  | invalidLength (count : Nat)
  | valueOutOfRange (value : TripletValue) (index : Nat)
  | invalidPadding (cp : CodePoint) (index : Nat)
deriving DecidableEq, Repr

/-- How a stage of DECODE ends other than with a value: a decode error, which is a completion of the
command (rule R120), or a fault of the model. -/
inductive Stop where
  | fail (e : DecodeFail)
  | fault (f : Fault)
deriving DecidableEq, Repr

/-- The result record `RES` (rule R26). Positions and counts are naturals; that they fit `IDX_W` bits
is an invariant (decision D14). -/
structure ResultRecord where
  /-- `RES.VALID`: 1 once any admitted command has completed since reset. -/
  valid : Bit
  /-- `RES.DIR`: the direction of the command that wrote the record. -/
  dir : Bit
  /-- `RES.KIND`: the status code of rule R64. -/
  kind : BitVec 3
  /-- `RES.ERR_CP` -/
  errCp : CodePoint
  /-- `RES.ERR_INDEX` -/
  errIndex : Nat
  /-- `RES.ERR_COUNT` -/
  errCount : Nat
  /-- `RES.ERR_VALUE` -/
  errValue : TripletValue
  /-- `RES.OUT` -/
  out : Elems
deriving DecidableEq, Repr

/-- The reset value of every field of `RES` (rules R26, R141). -/
def ResultRecord.reset : ResultRecord :=
  { valid := 0, dir := 0, kind := 0, errCp := 0, errIndex := 0, errCount := 0, errValue := 0,
    out := .codePoints [] }

/-- The scratch state of ENCODE (rule R31). -/
structure EncScratch where
  /-- The pair index, the sequencer's cursor. -/
  k : Nat
  v : PairValue
  q : Quotient
  d0 : Digit
  d1 : Digit
  d2 : Digit
  /-- `ACC`: the output being built. -/
  acc : List CodePoint
deriving DecidableEq, Repr

/-- The scratch state of DECODE (rule R31). `HASPAD` is 1 exactly when `pp` holds a pair (rule R102),
so it is stored there once. -/
structure DecScratch where
  /-- The working sequence. -/
  w : List CodePoint
  /-- The primary group. -/
  g : List CodePoint
  /-- The padding pair `PP`, where one was detected: `HASPAD` is 1 when there is one. -/
  pp : Option (CodePoint × CodePoint)
  /-- The triplet index, the sequencer's cursor. -/
  t : Nat
  v : TripletValue
  d0 : Digit
  d1 : Digit
  d2 : Digit
  /-- `ACC`: the output being built. -/
  acc : List Byte
deriving DecidableEq, Repr

/-- The scratch with which every ENCODE starts: the cursor at 0 (rule R21) and `ACC = []` (rule R45).
The other fields are written before they are read (DESIGN CHOICE 0, log entry 6). -/
def EncScratch.fresh : EncScratch :=
  { k := 0, v := 0, q := 0, d0 := 0, d1 := 0, d2 := 0, acc := [] }

/-- The scratch with which every DECODE starts: the cursor at 0 (rule R21) and `ACC = []` (rule R45).
The other fields are written before they are read (DESIGN CHOICE 0, log entry 6). -/
def DecScratch.fresh : DecScratch :=
  { w := [], g := [], pp := none, t := 0, v := 0, d0 := 0, d1 := 0, d2 := 0, acc := [] }

/-- Where the sequencer stands in a DECODE (the order of stages of rule R100). -/
inductive DecPhase where
  /-- Before Steps 1 and 2, `WS_FILTER` and `PAD_DETECT`. -/
  | filter
  /-- Before `LEN_CHECK`. -/
  | length
  /-- In the loop over the triplets, or after it when the cursor is at its end. -/
  | triplets
deriving DecidableEq, Repr

/-- A command that the sequencer has started and not completed: its latched input (rule R24) and its
scratch state (rule R31). -/
inductive InFlight where
  | encoding (input : List Byte) (sc : EncScratch)
  | decoding (input : List CodePoint) (phase : DecPhase) (sc : DecScratch)
deriving DecidableEq, Repr

/-- The state of one block instance and of what the collaborator has issued to it. -/
structure State where
  /-- The constant Alphabet Table, as the parameters its ROM, Padding run and Reverse Index are built
  from, and the capacities (rules R5, R40 to R42). No command writes it. -/
  params : Params
  /-- The commands issued and not yet started, the next one first (rules R22, R50). -/
  pending : List Command
  /-- The result record (rule R26). -/
  res : ResultRecord
  /-- The list of every command's result, the oldest first (rule R70: the state of a program). -/
  results : List ResultRecord
  /-- The hidden state of a command under way (rules R21, R31): none between commands. -/
  hidden : Option InFlight
deriving DecidableEq, Repr

/-- The state after reset of the block whose table holds the given parameters: reset does not change
the table (rule R140) and sets every field of `RES` to its reset value (rule R141). -/
def State.resetOf (p : Params) : State :=
  { params := p, pending := [], res := ResultRecord.reset, results := [], hidden := none }

/-- The machine right after reset (rules R140, R141). -/
def State.reset : State := State.resetOf Config.params

end Sys2Proof.Machine
end

