-- ==== Sys2Proof/Machine/Flags.lean ====
section
/-! DEFINITION. The status of the block: the codes of `RES.KIND` (rule R64), the detail fields each
error writes (rule R29), and the two records a completing command writes, the one of success (rules
R90, R109) and the one of failure (rule R121). -/

namespace Sys2Proof.Machine

/-- The code of a status kind (rule R64). -/
def Kind.code : Kind → BitVec 3
  | .ok => 0
  | .invalidCharacter => 1
  | .invalidLength => 2
  | .valueOutOfRange => 3
  | .invalidPadding => 4

/-- The status kind of a code; the codes 5 to 7 are reserved (rule R64). -/
def Kind.ofCode (b : BitVec 3) : Option Kind :=
  if b = 0 then some .ok
  else if b = 1 then some .invalidCharacter
  else if b = 2 then some .invalidLength
  else if b = 3 then some .valueOutOfRange
  else if b = 4 then some .invalidPadding
  else none

/-- The kind `K` of an error `K(info)` (rule R122). -/
def DecodeFail.kind : DecodeFail → Kind
  | .invalidCharacter _ _ => .invalidCharacter
  | .invalidLength _ => .invalidLength
  | .valueOutOfRange _ _ => .valueOutOfRange
  | .invalidPadding _ _ => .invalidPadding

/-- `RES.ERR_CP` for an error: the offending code point, 0 where the kind names none (rule R29). -/
def DecodeFail.errCp : DecodeFail → CodePoint
  | .invalidCharacter cp _ => cp
  | .invalidLength _ => 0
  | .valueOutOfRange _ _ => 0
  | .invalidPadding cp _ => cp

/-- `RES.ERR_INDEX` for an error: a position in the working sequence, 0 where the kind names none
(rule R29). -/
def DecodeFail.errIndex : DecodeFail → Nat
  | .invalidCharacter _ i => i
  | .invalidLength _ => 0
  | .valueOutOfRange _ i => i
  | .invalidPadding _ i => i

/-- `RES.ERR_COUNT` for an error: the length of the primary group, 0 where the kind names none (rule
R29). -/
def DecodeFail.errCount : DecodeFail → Nat
  | .invalidCharacter _ _ => 0
  | .invalidLength n => n
  | .valueOutOfRange _ _ => 0
  | .invalidPadding _ _ => 0

/-- `RES.ERR_VALUE` for an error: the triplet value, 0 where the kind names none (rule R29). -/
def DecodeFail.errValue : DecodeFail → TripletValue
  | .invalidCharacter _ _ => 0
  | .invalidLength _ => 0
  | .valueOutOfRange v _ => v
  | .invalidPadding _ _ => 0

/-- The record of a successful command: kind `OK`, every detail field 0 (rules R29, R90, R109). -/
def okRecord (dir : Bit) (out : Elems) : ResultRecord :=
  { valid := 1, dir := dir, kind := Kind.ok.code, errCp := 0, errIndex := 0, errCount := 0,
    errValue := 0, out := out }

/-- The record of `fail K(info)`: the kind's code, its detail, and no output (rules R28, R121). -/
def failRecord (e : DecodeFail) : ResultRecord :=
  { valid := 1, dir := 1, kind := e.kind.code, errCp := e.errCp, errIndex := e.errIndex,
    errCount := e.errCount, errValue := e.errValue, out := .bytes [] }

end Sys2Proof.Machine
end

