-- ==== Sys2Proof/Machine/Operands.lean ====
section
/-! DEFINITION. The assembly of every numeric field (rules R62, R67). Every operation is exact on the
naturals, and each width holds its value (rule R7). -/

namespace Sys2Proof.Machine

/-- `v = b0 * 256 + b1`, big-endian (rules R46 (a), R67). -/
def pairValue (b0 b1 : Byte) : PairValue := BitVec.ofNat 16 (b0.toNat * 256 + b1.toNat)

/-- `d2 = v mod 48` (rule R67). -/
def lowDigit (v : PairValue) : Digit := BitVec.ofNat 6 (v.toNat % 48)

/-- `q = v div 48` (rule R67). -/
def quotient (v : PairValue) : Quotient := BitVec.ofNat 11 (v.toNat / 48)

/-- `d1 = q mod 48` (rule R67). -/
def midDigit (q : Quotient) : Digit := BitVec.ofNat 6 (q.toNat % 48)

/-- `d0 = q div 48` (rule R67). -/
def highDigit (q : Quotient) : Digit := BitVec.ofNat 6 (q.toNat / 48)

/-- `v = d0 * 2304 + d1 * 48 + d2`, 17 bits (rules R67, R105). -/
def tripletValue (d0 d1 d2 : Digit) : TripletValue :=
  BitVec.ofNat 17 (d0.toNat * 2304 + d1.toNat * 48 + d2.toNat)

/-- `v[15:8]`, the first byte of a triplet (rules R46 (d), R67). -/
def highByte (v : TripletValue) : Byte := v.extractLsb' 8 8

/-- `v[7:0]`, the second byte of a triplet (rules R46 (d), R67). -/
def lowByte (v : TripletValue) : Byte := v.extractLsb' 0 8

/-- `b >> 4`, which is `b[7:4]` (rules R62, R67). -/
def highNibble (b : Byte) : Nibble := b.extractLsb' 4 4

/-- `b & 0xF`, which is `b[3:0]` (rules R62, R67). -/
def lowNibble (b : Byte) : Nibble := b.extractLsb' 0 4

/-- `(h << 4) | l` on bytes (rules R67, R108). -/
def padByte (h l : Nibble) : Byte := (h.setWidth 8 <<< 4) ||| l.setWidth 8

end Sys2Proof.Machine
end

