-- ==== Sys2Proof/Machine/Ops.lean ====
section
/-! DEFINITION. The operations the commands share: reading an element (rule R44), admission (rule
R23), completing a command (rule R25) and failing it (rule R121). After either completion the block
is ready for the next command, and there is nothing to return from (rule R126). -/

namespace Sys2Proof.Machine

/-- Element `i` of a sequence; an index outside it is a fault (rule R44, I4). -/
def readElem {α : Type} (xs : List α) (i : Nat) : Except Fault α :=
  match xs[i]? with
  | some x => .ok x
  | none => .error .inputIndex

/-- A fault of the model, seen from a stage of DECODE. -/
def orFault {α : Type} : Except Fault α → Except Stop α
  | .ok a => .ok a
  | .error f => .error (.fault f)

/-- The input is within the capacity: the command is admitted (rule R23). It counts the elements
against the capacity one by one, so an empty input is admitted whatever the capacity is. -/
def fits {α : Type} : List α → Nat → Bool
  | [], _ => true
  | _ :: _, 0 => false
  | _ :: xs, n + 1 => fits xs n

/-- The completion of an admitted command: it writes the whole of `RES` at once (rule R25), the result
joins the list of results (rule R70), and the hidden state is discarded (rule R31). -/
def State.complete (r : ResultRecord) (s : State) : State :=
  { s with res := r, results := s.results ++ [r], hidden := none }

/-- How a DECODE ends, given what its stages gave: `COMMIT_OK` on success (rule R109), the record of
`fail K(info)` on a decode error, a normal completion too (rules R120, R121), or a fault. -/
def State.endDecode (r : Except Stop (List Byte)) (s : State) : Host.Outcome State Fault Refusal :=
  match r with
  | .ok acc => .next (s.complete (okRecord 1 (.bytes acc)))
  | .error (.fail e) => .next (s.complete (failRecord e))
  | .error (.fault f) => .fault f

/-- How an ENCODE ends, given what its stages gave: the record of rule R90, or a fault. -/
def State.endEncode (r : Except Fault (List CodePoint)) (s : State) :
    Host.Outcome State Fault Refusal :=
  match r with
  | .ok acc => .next (s.complete (okRecord 0 (.codePoints acc)))
  | .error f => .fault f

end Sys2Proof.Machine
end

