-- ==== Sys2Proof/Machine/Alphabet.lean ====
section
/-! DEFINITION. The Alphabet Table and its four operations (rules R40 to R42, R80 to R83), with
the classifier's internal code (rule R63). -/

namespace Sys2Proof.Machine

/-- `ROM[d]`, the operation `ALPHA_READ`: `PRIMARY_BASE + d` for `d ≤ 46`, `PRIMARY_EXTRA` for 47, and
a fault at the addresses 48 to 63, which hold no entry (rules R40, R80, I3). -/
def romRead (p : Params) (d : Digit) : Except Fault CodePoint :=
  if d.toNat ≤ 46 then .ok (BitVec.ofNat 21 (p.alphabet.primaryBase.toNat + d.toNat))
  else if d.toNat = 47 then .ok p.alphabet.primaryExtra
  else .error .romAddress

/-- `Q(n)`, the operation `PAD_READ`: `PAD_BASE + n` (rules R41, R81). -/
def padRead (p : Params) (n : Nibble) : CodePoint :=
  BitVec.ofNat 21 (p.alphabet.padBase.toNat + n.toNat)

/-- `REV(c)`, the operation `REV_LOOKUP`: the digit of a Primary code point (rules R42, R82). -/
def revLookup (p : Params) (c : CodePoint) : Option Digit :=
  if p.alphabet.primaryBase.toNat ≤ c.toNat ∧ c.toNat ≤ p.alphabet.primaryBase.toNat + 46 then
    some (BitVec.ofNat 6 (c.toNat - p.alphabet.primaryBase.toNat))
  else if c = p.alphabet.primaryExtra then some 47
  else none

/-- `CLASSIFY`, with the tests in the order the source lists them (rule R83). -/
def classify (p : Params) (c : CodePoint) : Class :=
  if c ∈ Config.whitespaceSet then .whitespace
  else if p.alphabet.padBase.toNat ≤ c.toNat ∧ c.toNat ≤ p.alphabet.padBase.toNat + 15 then
    .padding (BitVec.ofNat 4 (c.toNat - p.alphabet.padBase.toNat))
  else
    match revLookup p c with
    | some d => .primary d
    | none => .invalid

/-- `CLS`, the 2-bit class code (rule R63). -/
def Class.cls : Class → BitVec 2
  | .whitespace => 0b00
  | .padding _ => 0b01
  | .primary _ => 0b10
  | .invalid => 0b11

/-- `VAL`, the 6-bit value beside the class code (rule R63). -/
def Class.val : Class → BitVec 6
  | .whitespace => 0
  | .padding n => n.setWidth 6
  | .primary d => d
  | .invalid => 0

end Sys2Proof.Machine
end

