-- ==== Sys2Proof/Machine/Decoder.lean ====
section
/-! DEFINITION. DECODE (`42_decoder.md`): its stages on the scratch state of rule R31, in the order of
rule R100, and its meaning. -/

namespace Sys2Proof.Machine

/-- `WS_FILTER`, Step 1: the elements that are not whitespace, in order (rule R101). -/
def wsFilter (p : Params) : List CodePoint → List CodePoint
  | [] => []
  | c :: cs => if classify p c = .whitespace then wsFilter p cs else c :: wsFilter p cs

/-- `c` classifies as Padding. -/
def isPadClass (p : Params) (c : CodePoint) : Bool :=
  match classify p c with
  | .padding _ => true
  | .whitespace => false
  | .primary _ => false
  | .invalid => false

/-- `PAD_DETECT`, Step 2: the primary group, and the padding pair when the working sequence has at
least two elements and its last two classify as Padding (rule R102). -/
def padDetect (p : Params) (w : List CodePoint) :
    List CodePoint × Option (CodePoint × CodePoint) :=
  if 2 ≤ w.length then
    match w[w.length - 2]?, w[w.length - 1]? with
    | some c0, some c1 =>
      if isPadClass p c0 && isPadClass p c1 then (w.take (w.length - 2), some (c0, c1))
      else (w, none)
    | _, _ => (w, none)
  else (w, none)

/-- `LEN_CHECK`, Step 3: the length of the primary group is a multiple of 3 (rule R103). -/
def lenCheck (g : List CodePoint) : Except Stop Unit :=
  if g.length % 3 ≠ 0 then .error (.fail (.invalidLength g.length)) else .ok ()

/-- The digit of element `i` of the primary group; any class but Primary fails (rule R104). -/
def digitAt (p : Params) (g : List CodePoint) (i : Nat) : Except Stop Digit :=
  match orFault (readElem g i) with
  | .ok c =>
    match classify p c with
    | .primary d => .ok d
    | .padding _ => .error (.fail (.invalidCharacter c i))
    | .invalid => .error (.fail (.invalidCharacter c i))
    | .whitespace => .error (.fail (.invalidCharacter c i))
  | .error e => .error e

/-- `TRIP_CLASSIFY`, Step 3: the three digits of triplet `t`, classified in index order (rule R104). -/
def tripClassify (p : Params) (g : List CodePoint) (t : Nat) : Except Stop (Digit × Digit × Digit) :=
  match digitAt p g (3 * t) with
  | .error e => .error e
  | .ok d0 =>
    match digitAt p g (3 * t + 1) with
    | .error e => .error e
    | .ok d1 =>
      match digitAt p g (3 * t + 2) with
      | .error e => .error e
      | .ok d2 => .ok (d0, d1, d2)

/-- `RANGE_CHECK`, Step 3: a triplet value is at most 65535 (rule R106). -/
def rangeCheck (v : TripletValue) (t : Nat) : Except Stop Unit :=
  if 65535 < v.toNat then .error (.fail (.valueOutOfRange v (3 * t))) else .ok ()

/-- `TRIP_EMIT`, Step 3: the two bytes of a triplet, the high one first (rule R107). -/
def tripEmit (v : TripletValue) (acc : List Byte) : List Byte := acc ++ [highByte v, lowByte v]

/-- One turn of DECODE's loop: the triplet at the cursor `t`, and the cursor moves on (rules R21,
R100). -/
def decTurn (p : Params) (sc : DecScratch) : Except Stop DecScratch :=
  match tripClassify p sc.g sc.t with
  | .error e => .error e
  | .ok (d0, d1, d2) =>
    let v := tripletValue d0 d1 d2
    match rangeCheck v sc.t with
    | .error e => .error e
    | .ok () =>
      .ok { sc with t := sc.t + 1, v := v, d0 := d0, d1 := d1, d2 := d2, acc := tripEmit v sc.acc }

/-- DECODE's loop over the triplets: that many turns (rule R100). -/
def decLoop (p : Params) : Nat → DecScratch → Except Stop DecScratch
  | 0, sc => .ok sc
  | turns + 1, sc =>
    match decTurn p sc with
    | .ok sc => decLoop p turns sc
    | .error e => .error e

/-- The nibble of element `j` of the padding pair; `InvalidPadding` is kept as the defensive check the
source asks for (rule R108, I1). -/
def nibbleOf (p : Params) (c : CodePoint) (index : Nat) : Except Stop Nibble :=
  match classify p c with
  | .padding n => .ok n
  | .whitespace => .error (.fail (.invalidPadding c index))
  | .primary _ => .error (.fail (.invalidPadding c index))
  | .invalid => .error (.fail (.invalidPadding c index))

/-- `PAD_DECODE`, Step 4: the byte of the padding pair, whose first element stands at index `base` of
the working sequence (rule R108). -/
def padDecode (p : Params) (pp : CodePoint × CodePoint) (base : Nat) (acc : List Byte) :
    Except Stop (List Byte) :=
  match nibbleOf p pp.1 base with
  | .error e => .error e
  | .ok n0 =>
    match nibbleOf p pp.2 (base + 1) with
    | .error e => .error e
    | .ok n1 => .ok (acc ++ [padByte n0 n1])

/-- Steps 1 and 2 of DECODE: they fill `W`, `G`, `PP` and `HASPAD` of a fresh scratch state (rules
R100 to R102). -/
def decFront (p : Params) (input : List CodePoint) : DecScratch :=
  let w := wsFilter p input
  { DecScratch.fresh with w := w, g := (padDetect p w).1, pp := (padDetect p w).2 }

/-- What follows DECODE's loop: Step 4 when there is a padding pair, and the output (rule R100). -/
def decFinish (p : Params) (sc : DecScratch) : Except Stop (List Byte) :=
  match sc.pp with
  | some pp => padDecode p pp (sc.w.length - 2) sc.acc
  | none => .ok sc.acc

/-- The stages of DECODE after Steps 1 and 2, in order (rule R100). -/
def decBack (p : Params) (sc : DecScratch) : Except Stop (List Byte) :=
  match lenCheck sc.g with
  | .error e => .error e
  | .ok () =>
    match decLoop p (sc.g.length / 3) sc with
    | .ok sc => decFinish p sc
    | .error e => .error e

/-- The stages of DECODE in order, from a fresh scratch state (rule R100). -/
def decStages (p : Params) (input : List CodePoint) : Except Stop (List Byte) :=
  decBack p (decFront p input)

/-- `DECODE` (rule R100). A longer input than `MAX_DEC_CPS` is refused (rule R23). -/
def execDecode (input : List CodePoint) (s : State) : Host.Outcome State Fault Refusal :=
  if fits input s.params.maxDecCps then s.endDecode (decStages s.params input)
  else .refused .overCapacity

end Sys2Proof.Machine
end

