-- ==== Sys2Proof/Machine/Encoder.lean ====
section
/-! DEFINITION. ENCODE (`41_encoder.md`): its stages on the scratch state of rule R31, and its meaning. -/

namespace Sys2Proof.Machine

/-- `ENC_PAIR`: two bytes to three Primary code points, the most significant digit first (rule R91). -/
def encPair (p : Params) (b0 b1 : Byte) (sc : EncScratch) : Except Fault EncScratch :=
  let v := pairValue b0 b1
  let d2 := lowDigit v
  let q := quotient v
  let d1 := midDigit q
  let d0 := highDigit q
  match romRead p d0, romRead p d1, romRead p d2 with
  | .ok c0, .ok c1, .ok c2 =>
    .ok { sc with v := v, q := q, d0 := d0, d1 := d1, d2 := d2, acc := sc.acc ++ [c0, c1, c2] }
  | .error f, _, _ => .error f
  | _, .error f, _ => .error f
  | _, _, .error f => .error f

/-- `ENC_TAIL`: the trailing odd byte to two Padding code points, the high nibble first (rule R93). -/
def encTail (p : Params) (b : Byte) (sc : EncScratch) : EncScratch :=
  { sc with acc := sc.acc ++ [padRead p (highNibble b), padRead p (lowNibble b)] }

/-- One turn of ENCODE's loop: the pair at the cursor `k`, and the cursor moves on (rules R21, R90). -/
def encTurn (p : Params) (input : List Byte) (sc : EncScratch) : Except Fault EncScratch :=
  match readElem input (2 * sc.k), readElem input (2 * sc.k + 1) with
  | .ok b0, .ok b1 =>
    match encPair p b0 b1 sc with
    | .ok sc => .ok { sc with k := sc.k + 1 }
    | .error f => .error f
  | .error f, _ => .error f
  | _, .error f => .error f

/-- ENCODE's loop over the pairs: that many turns (rule R90). -/
def encLoop (p : Params) (input : List Byte) : Nat → EncScratch → Except Fault EncScratch
  | 0, sc => .ok sc
  | turns + 1, sc =>
    match encTurn p input sc with
    | .ok sc => encLoop p input turns sc
    | .error f => .error f

/-- What follows ENCODE's loop: the tail when the length is odd, and the output (rule R90). -/
def encFinish (p : Params) (input : List Byte) (sc : EncScratch) : Except Fault (List CodePoint) :=
  if input.length % 2 = 1 then
    match readElem input (input.length - 1) with
    | .ok b => .ok (encTail p b sc).acc
    | .error f => .error f
  else .ok sc.acc

/-- The stages of ENCODE in order, from a fresh scratch state (rule R90). -/
def encStages (p : Params) (input : List Byte) : Except Fault (List CodePoint) :=
  match encLoop p input (input.length / 2) EncScratch.fresh with
  | .ok sc => encFinish p input sc
  | .error f => .error f

/-- `ENCODE` (rule R90). It raises no error (rule R123); a longer input than `MAX_ENC_BYTES` is
refused (rule R23). -/
def execEncode (input : List Byte) (s : State) : Host.Outcome State Fault Refusal :=
  if fits input s.params.maxEncBytes then s.endEncode (encStages s.params input)
  else .refused .overCapacity

end Sys2Proof.Machine
end

