-- ==== Sys2Proof/Machine/Dispatch.lean ====
section
/-! DEFINITION. The meaning of every instruction of the opcode table. -/

namespace Sys2Proof.Machine

def exec (i : Instr) (s : State) : Host.Outcome State Fault Refusal :=
  match i with
  | .encode input => Sys2Proof.Machine.execEncode input s
  | .decode input => Sys2Proof.Machine.execDecode input s

end Sys2Proof.Machine
end

