-- ==== Sys2Proof/Machine/Step.lean ====
section
/-! DEFINITION. One step of the machine: one command, start to completion (rules R8, R147). -/

namespace Sys2Proof.Machine

/-- One step: the next pending command is taken and runs to its completion as one atomic action (rules
R8, R24, R50). With no command pending the block does nothing, and `RES` keeps its value (rule R25). -/
def step (s : State) : Host.Outcome State Fault Refusal :=
  match s.pending with
  | [] => .next s
  | c :: rest =>
    match decodeCommand c with
    | .ok i => exec i { s with pending := rest }
    | .error .elementType => .refused .malformedCommand

/-- The state in which the collaborator has issued the command of that word as the block's next one:
the block fetches no instructions (rule R21), so a command reaches it through `pending`. -/
def State.withFetchWord (s : State) (nbits w : Nat) : State :=
  { s with pending := commandOfWord nbits w :: s.pending }

end Sys2Proof.Machine
end

