-- ==== Sys2Proof/Machine/Sequencer.lean ====
section
/-! DEFINITION. The hidden sequencer (rules R21, R31): the same stages as the commands' meanings, one
turn at a time, with the scratch state in `State.hidden`. A command is atomic (rule R8), so `step` is
the machine and no claim about `RES` reads this view; it says what the cursor and the scratch state
are, and that a command's turns end in the very state that `step` gives. -/

namespace Sys2Proof.Machine

/-- The sequencer starts a command: it latches the input and takes a fresh scratch state (rules R24,
R31), if the command is admitted (rule R23). -/
def startCommand (i : Instr) (s : State) : Host.Outcome State Fault Refusal :=
  match i with
  | .encode input =>
    if fits input s.params.maxEncBytes then
      .next { s with hidden := some (.encoding input EncScratch.fresh) }
    else .refused .overCapacity
  | .decode input =>
    if fits input s.params.maxDecCps then
      .next { s with hidden := some (.decoding input .filter DecScratch.fresh) }
    else .refused .overCapacity

/-- One turn of ENCODE: the pair at the cursor, or the completion after the last pair (rule R90). -/
def tickEncode (input : List Byte) (sc : EncScratch) (s : State) :
    Host.Outcome State Fault Refusal :=
  if sc.k < input.length / 2 then
    match encTurn s.params input sc with
    | .ok sc => .next { s with hidden := some (.encoding input sc) }
    | .error f => .fault f
  else s.endEncode (encFinish s.params input sc)

/-- One turn of DECODE: Steps 1 and 2, the length check, the triplet at the cursor, or the completion
after the last triplet (rule R100). -/
def tickDecode (input : List CodePoint) (phase : DecPhase) (sc : DecScratch) (s : State) :
    Host.Outcome State Fault Refusal :=
  match phase with
  | .filter => .next { s with hidden := some (.decoding input .length (decFront s.params input)) }
  | .length =>
    match lenCheck sc.g with
    | .ok () => .next { s with hidden := some (.decoding input .triplets sc) }
    | .error e => s.endDecode (.error e)
  | .triplets =>
    if sc.t < sc.g.length / 3 then
      match decTurn s.params sc with
      | .ok sc => .next { s with hidden := some (.decoding input .triplets sc) }
      | .error e => s.endDecode (.error e)
    else s.endDecode (decFinish s.params sc)

/-- One turn of the sequencer: of the command under way, or the start of the next one. -/
def tick (s : State) : Host.Outcome State Fault Refusal :=
  match s.hidden with
  | some (.encoding input sc) => tickEncode input sc s
  | some (.decoding input phase sc) => tickDecode input phase sc s
  | none =>
    match s.pending with
    | [] => .next s
    | c :: rest =>
      match decodeCommand c with
      | .ok i => startCommand i { s with pending := rest }
      | .error .elementType => .refused .malformedCommand

/-- That many turns of the sequencer, stopping at the first fault or refusal. -/
def ticks : Nat → State → Host.Outcome State Fault Refusal
  | 0, s => .next s
  | n + 1, s =>
    match tick s with
    | .next t => ticks n t
    | .fault f => .fault f
    | .refused r => .refused r

end Sys2Proof.Machine
end

