-- ==== Sys2Proof/Machine/Collaborator.lean ====
section
/-! DEFINITION. What the collaborator can do to the block (rule R133): issue a command, read the
result record, withdraw a refused command, reset the block. -/

namespace Sys2Proof.Machine

/-- The collaborator issues a command: it is taken after those issued before it (rules R50, R133). -/
def State.issue (c : Command) (s : State) : State := { s with pending := s.pending ++ [c] }

/-- The collaborator issues a program, a list of commands run in order (rule R70). -/
def State.load (commands : List Instr) (s : State) : State :=
  { s with pending := s.pending ++ commands.map encodeCommand }

/-- The collaborator withdraws the next command, if the block refuses it: the command did not run, and
`RES` is unchanged (rule R23). There is no cancellation (rule R132): a command that the block does not
refuse stays, and with none pending nothing changes (log entry 5). -/
def State.withdraw (s : State) : State :=
  match step s with
  | .refused _ => { s with pending := s.pending.tail }
  | .next _ => s
  | .fault _ => s

/-- A reset of the block, at any moment: `RES` takes its reset value, a command not completed is
discarded, and the Alphabet Table keeps its contents (rules R140, R141, I11). -/
def State.resetNow (s : State) : State := State.resetOf s.params

/-- The result of the last completed command; while `RES.VALID = 0` there is none to read (rule R27). -/
def State.lastResult (s : State) : Option ResultRecord :=
  if s.res.valid = 1 then some s.res else none

/-- The status kind in `RES.KIND`; a reserved code is a fault (rules R64, R68, I2). -/
def State.readKind (s : State) : Except Fault Kind :=
  match Kind.ofCode s.res.kind with
  | some k => .ok k
  | none => .error .reservedKind

/-- The element type and elements of the output, which the collaborator uses only after it has read
`KIND = OK` (rule R145). -/
def State.output (s : State) : Option Elems :=
  if s.res.valid = 1 ∧ s.res.kind = Kind.ok.code then some s.res.out else none

end Sys2Proof.Machine
end

