-- ==== Sys2Proof/Machine/System.lean ====
section
/-! DEFINITION. Several block instances over one Alphabet Table (rules R51, R131). They have no
identifiers, no start protocol and no signals between them; each steps on its own. -/

namespace Sys2Proof.Machine

/-- Block instances beside one another. -/
structure System where
  blocks : List State
deriving DecidableEq, Repr

/-- The instances share one Alphabet Table (rule R51). DESIGN CHOICE: they have the same capacities too,
which the spec leaves open (log entry 14). -/
def System.SharesTable (p : Params) (sys : System) : Prop := ∀ s ∈ sys.blocks, s.params = p

/-- Instance `i` takes a step; no other instance changes (rule R131). With no such instance nothing
happens. -/
def System.stepAt (i : Nat) (sys : System) : Host.Outcome System Fault Refusal :=
  match sys.blocks[i]? with
  | none => .next sys
  | some s =>
    match step s with
    | .next t => .next { sys with blocks := sys.blocks.set i t }
    | .fault f => .fault f
    | .refused r => .refused r

end Sys2Proof.Machine
end

