-- ==== Sys2Proof/Machine/TextForm.lean ====
section
/-! DEFINITION. The textual form of commands and programs (rule R70): what each of its elements and
commands stands for. The block has no assembler; this is the form the spec's programs are written in. -/

namespace Sys2Proof.Machine

/-- The code point an element stands for (rule R70). -/
def elemValue (p : Params) : TextElem → Except Fault CodePoint
  | .P d => romRead p d
  | .Q n => .ok (padRead p n)
  | .SP => .ok 0x20
  | .TAB => .ok 0x09
  | .LF => .ok 0x0A
  | .CR => .ok 0x0D
  | .U c => .ok c

/-- The code points a list of elements stands for (rule R70). -/
def elemValues (p : Params) : List TextElem → Except Fault (List CodePoint)
  | [] => .ok []
  | e :: es =>
    match elemValue p e, elemValues p es with
    | .ok c, .ok cs => .ok (c :: cs)
    | .error f, _ => .error f
    | _, .error f => .error f

/-- The instruction a command of the textual form stands for (rule R70). -/
def assembleCommand (p : Params) : TextCommand → Except Fault Instr
  | .ENCODE bytes => .ok (.encode bytes)
  | .DECODE elems =>
    match elemValues p elems with
    | .ok cs => .ok (.decode cs)
    | .error f => .error f

/-- The instructions a program of the textual form stands for, in order (rule R70). -/
def assemble (p : Params) : List TextCommand → Except Fault (List Instr)
  | [] => .ok []
  | c :: cs =>
    match assembleCommand p c, assemble p cs with
    | .ok i, .ok is => .ok (i :: is)
    | .error f, _ => .error f
    | _, .error f => .error f

end Sys2Proof.Machine
end

