-- ==== Sys2Proof/Safety.lean ====
section
/-! DEFINITION. The terms in which claims are stated: the spec's own notations `P(d)` and `Q(n)`, the
state after a completion, the legal values of the result record, the invariant of the machine, and
the form of the texts that DECODE accepts. -/

namespace Sys2Proof

/-- `P(d)`: the Primary code point of digit `d` (rules R7, R40). -/
def Params.P (p : Params) (d : Nat) : CodePoint :=
  if d ≤ 46 then BitVec.ofNat 21 (p.alphabet.primaryBase.toNat + d) else p.alphabet.primaryExtra

/-- `Q(n)`: the Padding code point of nibble `n` (rules R7, R41). -/
def Params.Q (p : Params) (n : Nat) : CodePoint :=
  BitVec.ofNat 21 (p.alphabet.padBase.toNat + n)

/-- The working sequence of a DECODE input: every element that is not in the whitespace set (rules
R65, R101). -/
def workingSequence (input : List CodePoint) : List CodePoint :=
  input.filter fun c => decide (c ∉ Config.whitespaceSet)

end Sys2Proof

namespace Sys2Proof.Machine

/-- The state after a command has completed with the record `r` (rule R25): `RES` is written whole,
the result joins the list of results (rule R70), no hidden state is left (rule R31), and the table and
the commands still to come are as before. -/
def State.after (s : State) (r : ResultRecord) : State :=
  { params := s.params, pending := s.pending, res := r, results := s.results ++ [r], hidden := none }

/-- The direction bit of an instruction (rule R60). -/
def dirOf : Instr → Bit
  | .encode _ => 0
  | .decode _ => 1

/-- The legal values of the result record (rules R26 to R29). -/
structure LegalRecord (p : Params) (r : ResultRecord) : Prop where
  /-- While `VALID = 0` every other field holds its reset value (rule R27). -/
  invalid_is_reset : r.valid = 0 → r = ResultRecord.reset
  /-- `KIND` holds no reserved value (rules R26, R68), and `InvalidPadding` is never raised (R125). -/
  kind_legal : r.kind = 0 ∨ r.kind = 1 ∨ r.kind = 2 ∨ r.kind = 3
  /-- The output has the element type `DIR` selects (rules R26, R145), and ENCODE outputs only Primary
  and Padding code points (rule R61). -/
  encode_out : r.dir = 0 → ∃ cps, r.out = .codePoints cps ∧
    ∀ c ∈ cps, p.alphabet.IsPrimary c ∨ p.alphabet.IsPadding c
  decode_out : r.dir = 1 → ∃ bytes, r.out = .bytes bytes
  /-- Only DECODE fails, and a failure has no output (rule R28). -/
  failure_is_empty : r.kind ≠ 0 → r.dir = 1 ∧ r.out = .bytes []
  /-- The detail fields of `OK` (rule R29). -/
  ok_detail : r.kind = 0 → r.errCp = 0 ∧ r.errIndex = 0 ∧ r.errCount = 0 ∧ r.errValue = 0
  /-- The detail fields of `InvalidCharacter` (rules R26, R29). -/
  character_detail : r.kind = 1 →
    r.errIndex < p.maxDecCps ∧ r.errCount = 0 ∧ r.errValue = 0
  /-- The detail fields of `InvalidLength` (rules R26, R29). -/
  length_detail : r.kind = 2 →
    r.errCp = 0 ∧ r.errIndex = 0 ∧ r.errCount ≤ p.maxDecCps ∧ r.errValue = 0
  /-- The detail fields of `ValueOutOfRange` (rules R26, R29). -/
  range_detail : r.kind = 3 →
    r.errCp = 0 ∧ r.errIndex < p.maxDecCps ∧ r.errCount = 0 ∧
    65536 ≤ r.errValue.toNat ∧ r.errValue.toNat ≤ 110591
  /-- Positions and counts fit `IDX_W` bits (decision D14). -/
  index_fits : r.errIndex < 2 ^ Config.idxW p.maxDecCps
  count_fits : r.errCount < 2 ^ Config.idxW p.maxDecCps

/-- The invariant of the machine between commands. -/
structure MachineInv (s : State) : Prop where
  res_legal : LegalRecord s.params s.res
  results_legal : ∀ r ∈ s.results, LegalRecord s.params r ∧ r.valid = 1
  /-- `RES` is the last result, or the reset record before the first one (rules R25, R27). -/
  res_is_last : s.res = s.results.getLast?.getD ResultRecord.reset
  /-- No hidden state survives a command (rule R31). -/
  nothing_hidden : s.hidden = none

/-- Three code points that form the encoding of a byte pair: three Primary ones whose digits give a
value of at most 65535 (the `T` of rule R65). -/
def IsTriplet (p : Params) (c0 c1 c2 : CodePoint) : Prop :=
  ∃ d0 d1 d2 : Nat, d0 < 48 ∧ d1 < 48 ∧ d2 < 48 ∧
    c0 = p.P d0 ∧ c1 = p.P d1 ∧ c2 = p.P d2 ∧ d0 * 2304 + d1 * 48 + d2 ≤ 65535

/-- The texts without whitespace that DECODE accepts: triplets, and a padding pair at the end or none
(rule R65). -/
inductive EncodedText (p : Params) : List CodePoint → Prop where
  | nothing : EncodedText p []
  | padding (n0 n1 : Nat) (h0 : n0 < 16) (h1 : n1 < 16) : EncodedText p [p.Q n0, p.Q n1]
  | triplet (c0 c1 c2 : CodePoint) (rest : List CodePoint) (h : IsTriplet p c0 c1 c2)
      (hrest : EncodedText p rest) : EncodedText p (c0 :: c1 :: c2 :: rest)

/-- The second text is the first with whitespace inserted, any number of times at any positions (rule
R111). -/
inductive InsertsWhitespace : List CodePoint → List CodePoint → Prop where
  | nil : InsertsWhitespace [] []
  | keep (c : CodePoint) (t u : List CodePoint) (h : InsertsWhitespace t u) :
      InsertsWhitespace (c :: t) (c :: u)
  | insert (c : CodePoint) (hc : c ∈ Config.whitespaceSet) (t u : List CodePoint)
      (h : InsertsWhitespace t u) : InsertsWhitespace t (c :: u)

/-- The working sequence of a text ends in a padding pair (rule R102): it has at least two elements,
and the last two are Padding code points. -/
def EndsInPair (p : Params) (w : List CodePoint) : Prop :=
  ∃ front c0 c1, w = front ++ [c0, c1] ∧ p.alphabet.IsPadding c0 ∧ p.alphabet.IsPadding c1

/-- `g` is the primary group of the working sequence `w`: all of it but the padding pair, if there is
one (rule R102). -/
def IsPrimaryGroup (p : Params) (w g : List CodePoint) : Prop :=
  (∃ c0 c1, w = g ++ [c0, c1] ∧ p.alphabet.IsPadding c0 ∧ p.alphabet.IsPadding c1) ∨
  (g = w ∧ ¬ EndsInPair p w)

/-- Triplet `t` of a primary group is the encoding of a byte pair (rules R104 to R106). -/
def TripletPasses (p : Params) (g : List CodePoint) (t : Nat) : Prop :=
  ∃ c0 c1 c2, g[3 * t]? = some c0 ∧ g[3 * t + 1]? = some c1 ∧ g[3 * t + 2]? = some c2 ∧
    IsTriplet p c0 c1 c2

/-- Triplet `t` is the first whose element fails to classify as Primary, and element `3t + j` with the
code point `c` is the first in it that does (rules R104, R124). -/
def FirstBadCharacter (p : Params) (g : List CodePoint) (t j : Nat) (c : CodePoint) : Prop :=
  t < g.length / 3 ∧ j < 3 ∧ (∀ t' < t, TripletPasses p g t') ∧
  (∀ j' < j, ∃ c', g[3 * t + j']? = some c' ∧ p.alphabet.IsPrimary c') ∧
  g[3 * t + j]? = some c ∧ ¬ p.alphabet.IsPrimary c

/-- Triplet `t` is the first that does not pass, its three elements are Primary, and its value `v` is
above 65535 (rules R106, R124). -/
def FirstOutOfRange (p : Params) (g : List CodePoint) (t v : Nat) : Prop :=
  t < g.length / 3 ∧ (∀ t' < t, TripletPasses p g t') ∧
  ∃ d0 d1 d2 : Nat, d0 < 48 ∧ d1 < 48 ∧ d2 < 48 ∧
    g[3 * t]? = some (p.P d0) ∧ g[3 * t + 1]? = some (p.P d1) ∧ g[3 * t + 2]? = some (p.P d2) ∧
    v = d0 * 2304 + d1 * 48 + d2 ∧ 65535 < v

/-- That many steps of the machine, stopping at the first fault or refusal (rule R50). -/
def steps : Nat → State → Host.Outcome State Fault Refusal
  | 0, s => .next s
  | n + 1, s =>
    match step s with
    | .next t => steps n t
    | .fault f => .fault f
    | .refused r => .refused r

/-- A step is safe when it does not fault. -/
def Safe (s : State) : Prop := ∀ f, step s ≠ .fault f

end Sys2Proof.Machine
end

