-- ==== Sys2Proof/Certificates/Slice0/Obligations.lean ====
section
/-! DEFINITION. The statements about the model, for the provers. Each docstring names the rule of the
spec that the statement formalises. -/

open Sys2Proof Sys2Proof.Machine

/-- Rules R22 and R60: `DIR = 0` selects ENCODE on bytes, `DIR = 1` selects DECODE on code points, and
no value of `DIR` is illegal. That the words of the opcode table decode to its two rows with an empty
`IN` is the model's own choice (log entry 8). -/
def Obligations.CommandWordSelectsInstruction : Prop :=
  (∀ xs, decodeCommand ⟨0b0#1, .bytes xs⟩ = .ok (.encode xs)) ∧
  (∀ xs, decodeCommand ⟨0b1#1, .codePoints xs⟩ = .ok (.decode xs)) ∧
  (∀ dir : Bit, ∃ input i, decodeCommand ⟨dir, input⟩ = .ok i) ∧
  decodeTableWord 8 0x0 = some (.encode []) ∧ decodeTableWord 8 0x1 = some (.decode [])

/-- Decoding gives back every encoded instruction, and each command has one reading (rules R22, R60).
That a pair whose input has the wrong element type is rejected, and no other, is the model's own
choice (log entry 3). -/
def Obligations.DecodeEncodeRoundTrip : Prop :=
  (∀ i, decodeCommand (encodeCommand i) = .ok i) ∧
  (∀ c i, decodeCommand c = .ok i → encodeCommand i = c) ∧
  (∀ c, c.wf = false ↔ decodeCommand c = .error .elementType)

/-- A step runs the next pending command, decoded, from the state in which it has been taken; with no
command pending it changes nothing; a pair that is no command is refused (rules R8, R22, R24, R50).
The queue and the refusal of such a pair are the model's own choices (log entries 2 and 3). -/
def Obligations.StepRunsDecodedCommand : Prop :=
  (∀ (s : State) c rest i, s.pending = c :: rest → decodeCommand c = .ok i →
    step s = exec i { s with pending := rest }) ∧
  (∀ s : State, s.pending = [] → step s = .next s) ∧
  (∀ (s : State) c rest e, s.pending = c :: rest → decodeCommand c = .error e →
    step s = .refused .malformedCommand)

/-- Rule R143, with the model's queue of issued commands (log entry 2): right after reset, whatever the table holds, an issued command is run by the next step. -/
def Obligations.FirstCommandRunsRightAfterReset : Prop :=
  ∀ p i, step ((State.resetOf p).issue (encodeCommand i)) = exec i (State.resetOf p)

/-- A reset at any moment gives every field of `RES` its reset value and discards a command that has
not completed (rule R141), and leaves the Alphabet Table as it is (rule R140); the state after reset
holds those values. That the queue of issued commands is empty after it and that `OUT` is an empty
sequence of code points are the model's own inference (log entry 13). -/
def Obligations.ResetClearsResultRecord : Prop :=
  (∀ s : State, s.resetNow.res.valid = 0 ∧ s.resetNow.res.dir = 0 ∧ s.resetNow.res.kind = 0 ∧
    s.resetNow.res.errCp = 0 ∧ s.resetNow.res.errIndex = 0 ∧ s.resetNow.res.errCount = 0 ∧
    s.resetNow.res.errValue = 0 ∧ s.resetNow.res.out = .codePoints [] ∧
    s.resetNow.hidden = none ∧ s.resetNow.pending = [] ∧ s.resetNow.params = s.params) ∧
  State.reset.res = { valid := 0, dir := 0, kind := 0, errCp := 0, errIndex := 0, errCount := 0,
                      errValue := 0, out := .codePoints [] }

/-- The state after reset meets the invariant, whatever parameters the table holds. -/
def Obligations.ResetMeetsInvariant : Prop :=
  (∀ p, MachineInv (State.resetOf p)) ∧ MachineInv State.reset

/-- Every step keeps the invariant: the result record stays legal, every recorded result is legal,
`RES` is the last result, and no hidden state survives (rules R25 to R29, R31, R68, R125). -/
def Obligations.StepKeepsInvariant : Prop :=
  ∀ s t, MachineInv s → step s = .next t → MachineInv t

/-- Rules R90, R91, R93: an admitted ENCODE completes with kind `OK`; pair `k` gives the three Primary
code points of its value's base-48 digits, most significant first, and a final odd byte gives the two
Padding code points of its nibbles, high nibble first, after all pairs. -/
def Obligations.EncodeGivesDigitsAndTail : Prop :=
  ∀ (s : State) (input : List Byte), input.length ≤ s.params.maxEncBytes →
    ∃ txt : List CodePoint,
      exec (.encode input) s = .next (s.after
        { valid := 1, dir := 0, kind := 0, errCp := 0, errIndex := 0, errCount := 0, errValue := 0,
          out := .codePoints txt }) ∧
      txt.length = 3 * (input.length / 2) + 2 * (input.length % 2) ∧
      (∀ k b0 b1, input[2 * k]? = some b0 → input[2 * k + 1]? = some b1 →
        txt[3 * k]? = some (s.params.P ((b0.toNat * 256 + b1.toNat) / 48 / 48)) ∧
        txt[3 * k + 1]? = some (s.params.P ((b0.toNat * 256 + b1.toNat) / 48 % 48)) ∧
        txt[3 * k + 2]? = some (s.params.P ((b0.toNat * 256 + b1.toNat) % 48))) ∧
      (∀ b, input.length % 2 = 1 → input[input.length - 1]? = some b →
        txt[3 * (input.length / 2)]? = some (s.params.Q (b.toNat / 16)) ∧
        txt[3 * (input.length / 2) + 1]? = some (s.params.Q (b.toNat % 16)))

/-- Rule R66: ENCODE output has the form `T*` for an even length and `T* Q Q` for an odd one, holds no
whitespace, and has exactly `3 * (n div 2) + 2 * (n mod 2)` elements. -/
def Obligations.EncodeOutputForm : Prop :=
  ∀ (s : State) (input : List Byte), input.length ≤ s.params.maxEncBytes →
    ∃ txt t, exec (.encode input) s = .next t ∧ t.res.out = .codePoints txt ∧
      EncodedText s.params txt ∧ (EndsInPair s.params txt ↔ input.length % 2 = 1) ∧
      (∀ c ∈ txt, c ∉ Config.whitespaceSet) ∧
      txt.length = 3 * (input.length / 2) + 2 * (input.length % 2)

/-- What `41_encoder.md` derives from rule R91 on digit bounds: the digits of a pair are at most 28, 47 and 47, so every ROM address ENCODE forms is in
0 to 47 and no ENCODE reads outside the ROM or its input; and the digits recombine to the value. -/
def Obligations.EncodeDigitBounds : Prop :=
  (∀ v : PairValue, (lowDigit v).toNat ≤ 47 ∧ (midDigit (quotient v)).toNat ≤ 47 ∧
    (highDigit (quotient v)).toNat = v.toNat / 2304 ∧ (highDigit (quotient v)).toNat ≤ 28 ∧
    v.toNat = (highDigit (quotient v)).toNat * 2304 + (midDigit (quotient v)).toNat * 48 +
      (lowDigit v).toNat) ∧
  (∀ p input f, encStages p input ≠ .error f)

/-- What `41_encoder.md` derives from rules R91, R93 and R42: ENCODE is injective. Two different inputs
that are both admitted give two different outputs. -/
def Obligations.EncodeIsInjective : Prop :=
  ∀ (s : State) (a b : List Byte) (t u : State),
    exec (.encode a) s = .next t → exec (.encode b) s = .next u → t.res.out = u.res.out → a = b

/-- Rule R123: ENCODE raises no error: it completes with kind `OK`, or it is refused, and it is
refused exactly when its input is longer than the capacity. -/
def Obligations.EncodeRaisesNoError : Prop :=
  ∀ (s : State) (input : List Byte),
    (∀ t, exec (.encode input) s = .next t → t.res.kind = 0) ∧
    (exec (.encode input) s = .refused .overCapacity ↔ s.params.maxEncBytes < input.length) ∧
    (input.length ≤ s.params.maxEncBytes → ∃ t, exec (.encode input) s = .next t)

/-- Rule R40: the ROM holds the run and then the extra point, an address of 48 or more faults, and no
ENCODE forms such an address. -/
def Obligations.RomHoldsRunThenExtra : Prop :=
  (∀ p (d : Digit), d.toNat ≤ 46 → ∃ c, romRead p d = .ok c ∧
    c.toNat = p.alphabet.primaryBase.toNat + d.toNat) ∧
  (∀ p (d : Digit), d.toNat = 47 → romRead p d = .ok p.alphabet.primaryExtra) ∧
  (∀ p (d : Digit), 48 ≤ d.toNat → romRead p d = .error .romAddress) ∧
  (∀ p input, encStages p input ≠ .error .romAddress)

/-- Rules R41 and R81: nibble `n` has the code point `PAD_BASE + n`, with no wrap, and the reverse
mapping is the offset from `PAD_BASE`. -/
def Obligations.PaddingRunIsOffset : Prop :=
  (∀ p (n : Nibble), (padRead p n).toNat = p.alphabet.padBase.toNat + n.toNat) ∧
  (∀ p (c : CodePoint), p.alphabet.padBase.toNat ≤ c.toNat →
    c.toNat ≤ p.alphabet.padBase.toNat + 15 →
    ∃ n : Nibble, classify p c = .padding n ∧ n.toNat = c.toNat - p.alphabet.padBase.toNat)

/-- Rule R42: the Reverse Index in closed form; and what the spec derives from rules R40 and R85: it
undoes the ROM, and it has a digit for exactly the entries of the ROM. -/
def Obligations.ReverseIndexUndoesRom : Prop :=
  (∀ p (c : CodePoint), p.alphabet.InRun c → ∃ d : Digit, revLookup p c = some d ∧
    d.toNat = c.toNat - p.alphabet.primaryBase.toNat) ∧
  (∀ p, revLookup p p.alphabet.primaryExtra = some 47) ∧
  (∀ p (c : CodePoint), ¬ p.alphabet.IsPrimary c → revLookup p c = none) ∧
  (∀ p (d : Digit) c, romRead p d = .ok c → revLookup p c = some d) ∧
  (∀ p c, revLookup p c ≠ none ↔ ∃ d : Digit, romRead p d = .ok c)

/-- Rule R83: the class of every code point, with its nibble or digit. Each case holds whatever the
order of the tests, which the spec derives from the disjointness of the sets (rule R85). -/
def Obligations.ClassifyGivesClass : Prop :=
  ∀ p (c : CodePoint),
    (c ∈ Config.whitespaceSet → classify p c = .whitespace) ∧
    (∀ n < 16, c = p.Q n → classify p c = .padding (BitVec.ofNat 4 n)) ∧
    (∀ d < 48, c = p.P d → classify p c = .primary (BitVec.ofNat 6 d)) ∧
    (c ∉ Config.whitespaceSet → ¬ p.alphabet.IsPadding c → ¬ p.alphabet.IsPrimary c →
      classify p c = .invalid)

/-- What `40_alphabet.md` derives from rule R85: Primary (48 members), Padding (16 members) and whitespace (4 members) are pairwise
disjoint, so a code point belongs to at most one of them. -/
def Obligations.AlphabetsAreDisjoint : Prop :=
  ∀ p : Params,
    (∀ c, p.alphabet.IsPrimary c ↔ ∃ d < 48, c = p.P d) ∧
    (∀ d < 48, ∀ d' < 48, p.P d = p.P d' → d = d') ∧
    (∀ c, p.alphabet.IsPadding c ↔ ∃ n < 16, c = p.Q n) ∧
    (∀ n < 16, ∀ n' < 16, p.Q n = p.Q n' → n = n') ∧
    Config.whitespaceSet.length = 4 ∧ Config.whitespaceSet.Nodup ∧
    (∀ c, ¬ (p.alphabet.IsPrimary c ∧ p.alphabet.IsPadding c)) ∧
    (∀ c ∈ Config.whitespaceSet, ¬ p.alphabet.IsPrimary c ∧ ¬ p.alphabet.IsPadding c)

/-- Rule R63: the codes of the four classes and the 6-bit value beside each; every code is used, and
the digit of a Primary code point is at most 47. -/
def Obligations.ClassCodeTable : Prop :=
  (Class.whitespace.cls = 0b00 ∧ Class.whitespace.val = 0) ∧
  (∀ n : Nibble, (Class.padding n).cls = 0b01 ∧ (Class.padding n).val.toNat = n.toNat) ∧
  (∀ d : Digit, (Class.primary d).cls = 0b10 ∧ (Class.primary d).val = d) ∧
  (Class.invalid.cls = 0b11 ∧ Class.invalid.val = 0) ∧
  (∀ b : BitVec 2, ∃ k : Machine.Class, k.cls = b) ∧
  (∀ p c d, classify p c = .primary d → d.toNat ≤ 47)

/-- Rule R85: a parameter set is accepted when it meets W1 to W5, and refused when it breaks any. W4 is
derived by the spec, and the Unicode bounds of W1, W2, W3 and W5 are general knowledge (log entry 9). -/
def Obligations.ParametersAcceptedIffWellFormed : Prop :=
  (∀ (a : Alphabet) (m n : Nat), a.Wf → ∃ p, Params.make a m n = .ok p ∧ p.alphabet = a ∧
    p.maxEncBytes = m ∧ p.maxDecCps = n) ∧
  (∀ (a : Alphabet) (m n : Nat), ¬ a.Wf → ∃ e, Params.make a m n = .error e)

/-- Rule R5 and decision D14: `IDX_W` is the least width whose values exceed `MAX_DEC_CPS`. -/
def Obligations.IndexWidthIsLeast : Prop :=
  ∀ m, m < 2 ^ Config.idxW m ∧ ∀ w, m < 2 ^ w → Config.idxW m ≤ w

/-- Rules R62 and R67, with the ranges the spec derives: every numeric field is the exact natural its assembly gives. -/
def Obligations.FieldAssemblyIsExact : Prop :=
  (∀ b0 b1 : Byte, (pairValue b0 b1).toNat = b0.toNat * 256 + b1.toNat) ∧
  (∀ v : PairValue, (lowDigit v).toNat = v.toNat % 48 ∧ (quotient v).toNat = v.toNat / 48) ∧
  (∀ v : PairValue, (midDigit (quotient v)).toNat = v.toNat / 48 % 48 ∧
    (highDigit (quotient v)).toNat = v.toNat / 48 / 48) ∧
  (∀ d0 d1 d2 : Digit, d0.toNat ≤ 47 → d1.toNat ≤ 47 → d2.toNat ≤ 47 →
    (tripletValue d0 d1 d2).toNat = d0.toNat * 2304 + d1.toNat * 48 + d2.toNat ∧
    (tripletValue d0 d1 d2).toNat ≤ 110591) ∧
  (∀ v : TripletValue, v.toNat ≤ 65535 →
    (highByte v).toNat = v.toNat / 256 ∧ (lowByte v).toNat = v.toNat % 256) ∧
  (∀ b : Byte, (highNibble b).toNat = b.toNat / 16 ∧ (lowNibble b).toNat = b.toNat % 16) ∧
  (∀ h l : Nibble, (padByte h l).toNat = h.toNat * 16 + l.toNat)

/-- An admitted command completes (rules R90, R100 and R147, with the spec's own choice that no command
hangs: log entry 10); a longer one is refused and does not run, so it gives no next state and no
result; an empty input is always admitted (rule R23). -/
def Obligations.AdmittedCompletesElseRefused : Prop :=
  (∀ (s : State) (input : List Byte), input.length ≤ s.params.maxEncBytes →
    ∃ r, exec (.encode input) s = .next (s.after r) ∧ r.valid = 1 ∧ r.dir = 0) ∧
  (∀ (s : State) (input : List CodePoint), input.length ≤ s.params.maxDecCps →
    ∃ r, exec (.decode input) s = .next (s.after r) ∧ r.valid = 1 ∧ r.dir = 1) ∧
  (∀ (s : State) i, i.wf s.params = false → exec i s = .refused .overCapacity) ∧
  (∀ p, (Instr.encode []).wf p = true ∧ (Instr.decode []).wf p = true)

/-- After a refusal `RES` is as it was, and the block runs the next command (rules R23, R126). How a
refused command leaves the queue is the model's own choice (log entry 5). -/
def Obligations.BlockGoesOnAfterRefusal : Prop :=
  ∀ (s : State) c c' rest i r, s.pending = c :: c' :: rest → step s = .refused r →
    decodeCommand c' = .ok i →
    s.withdraw.res = s.res ∧ s.withdraw.results = s.results ∧ s.withdraw.params = s.params ∧
    step s.withdraw = exec i { s with pending := rest }

/-- Only the completion of a command writes `RES`; it writes the whole record, so that the next state is
the same whatever record stood there before, with the command's direction; and it changes nothing else
of the machine but the list of results (rule R25). A step with no command and the collaborator's
issuing or withdrawing of commands leave `RES` as it was. The list of results, the queue and the
withdrawal are the model's own (log entries 2, 4 and 5). -/
def Obligations.CompletionWritesOnlyTheResult : Prop :=
  (∀ i (s t : State), exec i s = .next t → t = s.after t.res ∧ t.res.valid = 1 ∧
    t.res.dir = dirOf i) ∧
  (∀ i (s t : State) old, exec i s = .next t → exec i { s with res := old } = .next t) ∧
  (∀ s t : State, step s = .next t → s.pending = [] → t.res = s.res) ∧
  (∀ (s : State) c, (s.issue c).res = s.res) ∧
  (∀ s : State, s.withdraw.res = s.res)

/-- Rule R47: a command's result depends on the command and the Alphabet Table and on nothing else of
the state it starts from, and a refusal does too. -/
def Obligations.ResultDependsOnCommandAndTable : Prop :=
  ∀ i (s s' : State), s.params = s'.params →
    (∀ t, exec i s = .next t → ∃ t', exec i s' = .next t' ∧ t'.res = t.res) ∧
    (∀ r, exec i s = .refused r → exec i s' = .refused r)

/-- Rule R27: `VALID` is 0 after reset and 1 after every completion; a step that completes no command
keeps it, no step clears it, and while it is 0 every other field holds its reset value and there is
no result to read. -/
def Obligations.ValidMarksAResult : Prop :=
  (∀ s : State, s.resetNow.res.valid = 0 ∧ s.resetNow.lastResult = none) ∧
  (∀ i (s t : State), exec i s = .next t → t.res.valid = 1 ∧ t.lastResult = some t.res) ∧
  (∀ s t : State, s.pending = [] → step s = .next t → t.res.valid = s.res.valid) ∧
  (∀ s t, MachineInv s → step s = .next t → s.res.valid = 1 → t.res.valid = 1) ∧
  (∀ s, MachineInv s → s.res.valid = 0 → s.res = ResultRecord.reset ∧ s.lastResult = none)

/-- Rule R28: a command that completes with a kind other than `OK` is a DECODE and has no output; the
collaborator that checks the kind first (rule R145) reads an output of the successful commands only. -/
def Obligations.FailureHasNoOutput : Prop :=
  ∀ i (s t : State), exec i s = .next t →
    (t.res.kind ≠ 0 → (∃ input, i = .decode input) ∧ t.res.dir = 1 ∧ t.res.out = .bytes [] ∧
      t.output = none) ∧
    (t.res.kind = 0 → t.output = some t.res.out)

/-- Rule R29: every detail field that the table does not name for the kind is written as 0. The row of
`InvalidPadding`, which no command raises, is in `Obligations.InvalidPaddingIsNeverRaised`. -/
def Obligations.UnnamedDetailIsZero : Prop :=
  ∀ i (s t : State), exec i s = .next t →
    (t.res.kind = 0 → t.res.errCp = 0 ∧ t.res.errIndex = 0 ∧ t.res.errCount = 0 ∧
      t.res.errValue = 0) ∧
    (t.res.kind = 1 → t.res.errCount = 0 ∧ t.res.errValue = 0) ∧
    (t.res.kind = 2 → t.res.errCp = 0 ∧ t.res.errIndex = 0 ∧ t.res.errValue = 0) ∧
    (t.res.kind = 3 → t.res.errCp = 0 ∧ t.res.errCount = 0)

/-- Rule R64: the codes of the five kinds, and the collaborator's read of `KIND` gives the kind of the
code. That this read faults on the reserved codes 5 to 7 is the model's own choice (log entry 12, from
I2 of `93_implementation_defined.md`). -/
def Obligations.StatusCodeTable : Prop :=
  Kind.ok.code = 0 ∧ Kind.invalidCharacter.code = 1 ∧ Kind.invalidLength.code = 2 ∧
  Kind.valueOutOfRange.code = 3 ∧ Kind.invalidPadding.code = 4 ∧
  (∀ (s : State) k, s.res.kind = k.code → s.readKind = .ok k) ∧
  (∀ s : State, 5 ≤ s.res.kind.toNat → s.readKind = .error .reservedKind)

/-- Rule R101: the working sequence is the input without the members of the whitespace set, in order. -/
def Obligations.FilterDropsWhitespaceOnly : Prop :=
  ∀ p (input : List CodePoint), wsFilter p input = workingSequence input

/-- Rule R102: a padding pair is detected exactly when the working sequence ends in two Padding code
points; the primary group is then everything before them, else the whole sequence. -/
def Obligations.PaddingPairDetection : Prop :=
  (∀ p (front : List CodePoint) c0 c1, p.alphabet.IsPadding c0 → p.alphabet.IsPadding c1 →
    padDetect p (front ++ [c0, c1]) = (front, some (c0, c1))) ∧
  (∀ p w, ¬ EndsInPair p w → padDetect p w = (w, none))

/-- Rule R103: a primary group whose length is not a multiple of 3 fails with `InvalidLength`, the
count its length, whatever its elements are. -/
def Obligations.LengthIsCheckedFirst : Prop :=
  ∀ (s : State) (input g : List CodePoint), input.length ≤ s.params.maxDecCps →
    IsPrimaryGroup s.params (workingSequence input) g → g.length % 3 ≠ 0 →
    exec (.decode input) s = .next (s.after
      { valid := 1, dir := 1, kind := 2, errCp := 0, errIndex := 0, errCount := g.length,
        errValue := 0, out := .bytes [] })

/-- Rule R104: the first element of the first failing triplet that is not Primary fails with
`InvalidCharacter`, the code point and its index in the working sequence. -/
def Obligations.FirstBadCharacterIsReported : Prop :=
  ∀ (s : State) (input g : List CodePoint) t j c, input.length ≤ s.params.maxDecCps →
    IsPrimaryGroup s.params (workingSequence input) g → g.length % 3 = 0 →
    FirstBadCharacter s.params g t j c →
    exec (.decode input) s = .next (s.after
      { valid := 1, dir := 1, kind := 1, errCp := c, errIndex := 3 * t + j, errCount := 0,
        errValue := 0, out := .bytes [] }) ∧
    (workingSequence input)[3 * t + j]? = some c

/-- Rule R106: the first failing triplet, when its elements are all Primary, fails with
`ValueOutOfRange`, its value and the index of its first element. -/
def Obligations.FirstOutOfRangeIsReported : Prop :=
  ∀ (s : State) (input g : List CodePoint) t v, input.length ≤ s.params.maxDecCps →
    IsPrimaryGroup s.params (workingSequence input) g → g.length % 3 = 0 →
    FirstOutOfRange s.params g t v →
    exec (.decode input) s = .next (s.after
      { valid := 1, dir := 1, kind := 3, errCp := 0, errIndex := 3 * t, errCount := 0,
        errValue := BitVec.ofNat 17 v, out := .bytes [] }) ∧
    65536 ≤ v ∧ v ≤ 110591

/-- Rules R107 to R109: when every triplet passes, DECODE completes with kind `OK`; triplet `t` gives
the high and the low byte of its value, the padding pair gives the last byte, and the output has
`2 * (g div 3) + HASPAD` bytes. -/
def Obligations.DecodeSuccessOutput : Prop :=
  ∀ (s : State) (input g pair : List CodePoint), input.length ≤ s.params.maxDecCps →
    workingSequence input = g ++ pair → IsPrimaryGroup s.params (workingSequence input) g →
    g.length % 3 = 0 → (∀ t < g.length / 3, TripletPasses s.params g t) →
    ∃ bytes : List Byte,
      exec (.decode input) s = .next (s.after
        { valid := 1, dir := 1, kind := 0, errCp := 0, errIndex := 0, errCount := 0, errValue := 0,
          out := .bytes bytes }) ∧
      bytes.length = 2 * (g.length / 3) + pair.length / 2 ∧
      (∀ t d0 d1 d2, t < g.length / 3 → d0 < 48 → d1 < 48 → d2 < 48 →
        g[3 * t]? = some (s.params.P d0) → g[3 * t + 1]? = some (s.params.P d1) →
        g[3 * t + 2]? = some (s.params.P d2) →
        bytes[2 * t]? = some (BitVec.ofNat 8 ((d0 * 2304 + d1 * 48 + d2) / 256)) ∧
        bytes[2 * t + 1]? = some (BitVec.ofNat 8 ((d0 * 2304 + d1 * 48 + d2) % 256))) ∧
      (∀ n0 n1, n0 < 16 → n1 < 16 → pair = [s.params.Q n0, s.params.Q n1] →
        bytes[2 * (g.length / 3)]? = some (BitVec.ofNat 8 (n0 * 16 + n1)))

/-- What `60_exceptions.md` section 3 derives from the order of the stages (rules R100, R103, R104,
R106): of several faults only the first in the order is reported. `InvalidLength` is reported
exactly when the group's length is not a multiple of 3; else the first failing triplet decides, its
characters before its value; with none the kind is `OK`. -/
def Obligations.ErrorPriority : Prop :=
  ∀ (s : State) (input g : List CodePoint), input.length ≤ s.params.maxDecCps →
    IsPrimaryGroup s.params (workingSequence input) g →
    ∃ t, exec (.decode input) s = .next t ∧
      (t.res.kind = 2 ↔ g.length % 3 ≠ 0) ∧
      (t.res.kind = 1 ↔ g.length % 3 = 0 ∧ ∃ k j c, FirstBadCharacter s.params g k j c ∧
        t.res.errCp = c ∧ t.res.errIndex = 3 * k + j) ∧
      (t.res.kind = 3 ↔ g.length % 3 = 0 ∧ ∃ k v, FirstOutOfRange s.params g k v ∧
        t.res.errValue.toNat = v ∧ t.res.errIndex = 3 * k) ∧
      (t.res.kind = 0 ↔ g.length % 3 = 0 ∧ ∀ k < g.length / 3, TripletPasses s.params g k)

/-- What `60_exceptions.md` derives from rules R102 and R108: `InvalidPadding` is never raised. A
detected pair always decodes, and no command completes with that kind. The check is kept (rule R125):
for a pair whose element is not Padding `PAD_DECODE` fails with the first such element and its index in
the working sequence (rule R108), and that failure would write the record of rules R29 and R121. -/
def Obligations.InvalidPaddingIsNeverRaised : Prop :=
  (∀ p w pp base acc e, (padDetect p w).2 = some pp → padDecode p pp base acc ≠ .error e) ∧
  (∀ i (s t : State), exec i s = .next t → t.res.kind ≠ 4) ∧
  (∀ p c0 c1 base acc, ¬ p.alphabet.IsPadding c0 →
    padDecode p (c0, c1) base acc = .error (.fail (.invalidPadding c0 base))) ∧
  (∀ p c0 c1 base acc, p.alphabet.IsPadding c0 → ¬ p.alphabet.IsPadding c1 →
    padDecode p (c0, c1) base acc = .error (.fail (.invalidPadding c1 (base + 1)))) ∧
  (∀ p (sc : DecScratch) pp, sc.pp = some pp →
    decFinish p sc = padDecode p pp (sc.w.length - 2) sc.acc) ∧
  (∀ (s : State) c index, s.endDecode (.error (.fail (.invalidPadding c index))) =
    .next (s.after { valid := 1, dir := 1, kind := 4, errCp := c, errIndex := index, errCount := 0,
                     errValue := 0, out := .bytes [] }))

/-- What `30_encoding.md` section 5 derives from rules R100 to R109: a DECODE succeeds exactly when its working sequence consists of triplets, with a padding
pair at the end or none. -/
def Obligations.AcceptedTextsAreEncodings : Prop :=
  ∀ (s : State) (input : List CodePoint), input.length ≤ s.params.maxDecCps →
    ∃ t, exec (.decode input) s = .next t ∧
      (t.res.kind = 0 ↔ EncodedText s.params (workingSequence input))

/-- The round trip, which the source states and `42_decoder.md` derives from rules R90 to R109: decoding
the output of ENCODE gives `OK` and the bytes encoded, for every admitted
input whose output is admitted. -/
def Obligations.DecodeAfterEncodeGivesInput : Prop :=
  ∀ (s s' : State) (b : List Byte), s'.params = s.params → b.length ≤ s.params.maxEncBytes →
    ∃ t txt, exec (.encode b) s = .next t ∧ t.res.out = .codePoints txt ∧
      (txt.length ≤ s.params.maxDecCps →
        exec (.decode txt) s' = .next (s'.after
          { valid := 1, dir := 1, kind := 0, errCp := 0, errIndex := 0, errCount := 0,
            errValue := 0, out := .bytes b }))

/-- What `42_decoder.md` derives from rule R101, extending the source's whitespace property to inputs
that fail: inserting whitespace anywhere in a DECODE input, any number of times, does not change
the result, the error index included, while the longer input is admitted. -/
def Obligations.WhitespaceChangesNothing : Prop :=
  ∀ (s : State) (t u : List CodePoint), InsertsWhitespace t u → u.length ≤ s.params.maxDecCps →
    ∃ r, exec (.decode t) s = .next (s.after r) ∧ exec (.decode u) s = .next (s.after r)

/-- What `42_decoder.md` derives from rules R91, R93 and R100 to R109: an accepted text is, up to whitespace, the encoding of the bytes it decodes to. -/
def Obligations.AcceptedTextIsCanonical : Prop :=
  ∀ (s s' : State) (input : List CodePoint) (t : State) (b : List Byte), s'.params = s.params →
    exec (.decode input) s = .next t → t.res.kind = 0 → t.res.out = .bytes b →
    b.length ≤ s.params.maxEncBytes →
    ∃ u, exec (.encode b) s' = .next u ∧ u.res.out = .codePoints (workingSequence input)

/-- No step faults, from any state: no command reads the ROM at 48 to 63 or a sequence outside it
(rules R40, R44). -/
def Obligations.StepNeverFaults : Prop := ∀ s, Safe s

/-- Nothing writes the Alphabet Table: neither a step, nor a turn of the sequencer, nor the
collaborator, nor reset (rules R33, R52, R140). -/
def Obligations.AlphabetTableIsConstant : Prop :=
  (∀ s t, step s = .next t → t.params = s.params) ∧
  (∀ s t, tick s = .next t → t.params = s.params) ∧
  (∀ s c, (State.issue c s).params = s.params) ∧
  (∀ s is, (State.load is s).params = s.params) ∧
  (∀ s : State, s.withdraw.params = s.params ∧ s.resetNow.params = s.params)

/-- Rule R50, with the model's queue of issued commands (log entry 2): commands complete in the order they are issued: from a state in which admitted commands
are pending, that many steps run all of them, and the results are those of the commands, each as from
reset, in that order. -/
def Obligations.CommandsCompleteInOrder : Prop :=
  ∀ (cmds : List Instr) (s : State), s.pending = cmds.map encodeCommand →
    (∀ i ∈ cmds, i.wf s.params = true) →
    ∃ (t : State) (rs : List ResultRecord), steps cmds.length s = .next t ∧ t.pending = [] ∧ t.params = s.params ∧
      t.results = s.results ++ rs ∧ t.res = rs.getLast?.getD s.res ∧
      rs.length = cmds.length ∧
      ∀ (k : Nat) i r, cmds[k]? = some i → rs[k]? = some r →
        ∃ u, exec i (State.resetOf s.params) = .next u ∧ u.res = r

/-- Rules R51 and R131, on the model's own form of several instances (log entry 14): a step of one
changes no other, steps of two instances give the same whichever is taken first, and instances that
share a table go on sharing it. That those have the same capacities too is the model's own choice (log
entry 14). -/
def Obligations.BlocksAreIndependent : Prop :=
  (∀ i j (sys sys' : System), i ≠ j → sys.stepAt i = .next sys' →
    sys'.blocks[j]? = sys.blocks[j]?) ∧
  (∀ i j (sys a b : System), i ≠ j → sys.stepAt i = .next a → sys.stepAt j = .next b →
    ∃ c, a.stepAt j = .next c ∧ b.stepAt i = .next c) ∧
  (∀ p i (sys sys' : System), sys.SharesTable p → sys.stepAt i = .next sys' →
    sys'.SharesTable p)

/-- The hidden sequencer, in the model's own turns (log entry 6), carries out what a step does: from a state with nothing under way, a step
that completes a command is reached by the sequencer's turns, and both refuse the same commands
(rules R8, R21, R31). -/
def Obligations.SequencerReachesTheStep : Prop :=
  (∀ s t : State, s.hidden = none → step s = .next t → ∃ n, ticks n s = .next t) ∧
  (∀ (s : State) r, s.hidden = none → (step s = .refused r ↔ tick s = .refused r))

/-- Rules R70 and R84: what the elements of the textual form stand for; `SP`, `TAB`, `LF` and `CR` are
the code points U+0020, U+0009, U+000A and U+000D, and whitespace is those four and no other. The
spec marks these four values as general knowledge (log entry 9). -/
def Obligations.TextFormElements : Prop :=
  (∀ p (d : Digit), d.toNat < 48 → elemValue p (.P d) = .ok (p.P d.toNat)) ∧
  (∀ p (n : Nibble), elemValue p (.Q n) = .ok (p.Q n.toNat)) ∧
  (∀ p (c : CodePoint), elemValue p (.U c) = .ok c) ∧
  (∀ p, elemValue p .SP = .ok 0x20#21 ∧ elemValue p .TAB = .ok 0x09#21 ∧
    elemValue p .LF = .ok 0x0A#21 ∧ elemValue p .CR = .ok 0x0D#21) ∧
  (∀ p c, classify p c = .whitespace ↔
    c = 0x20#21 ∨ c = 0x09#21 ∨ c = 0x0A#21 ∨ c = 0x0D#21)

/-- Rules R90 and R100: empty input gives empty output and `OK` in both directions, and so does a
DECODE input made only of whitespace, which the spec derives from rules R101 to R103. -/
def Obligations.EmptyInputSucceeds : Prop :=
  (∀ s : State, exec (.encode []) s = .next (s.after
    { valid := 1, dir := 0, kind := 0, errCp := 0, errIndex := 0, errCount := 0, errValue := 0,
      out := .codePoints [] })) ∧
  (∀ (s : State) (input : List CodePoint), input.length ≤ s.params.maxDecCps →
    (∀ c ∈ input, c ∈ Config.whitespaceSet) →
    exec (.decode input) s = .next (s.after
      { valid := 1, dir := 1, kind := 0, errCp := 0, errIndex := 0, errCount := 0, errValue := 0,
        out := .bytes [] }))

/-- There is no cancellation (rule R132): a withdrawal changes nothing when the next command is admitted
or none is pending, it drops that one command when the block refuses it (rule R23), and a command
issued drops none of those before it. The queue and the withdrawal are the model's own (log entries 2
and 5). -/
def Obligations.AdmittedCommandIsNotCancelled : Prop :=
  (∀ (s : State) c rest i, s.pending = c :: rest → decodeCommand c = .ok i →
    i.wf s.params = true → s.withdraw = s) ∧
  (∀ s : State, s.pending = [] → s.withdraw = s) ∧
  (∀ (s : State) r, step s = .refused r → s.withdraw = { s with pending := s.pending.tail }) ∧
  (∀ (s : State) c, s.issue c = { s with pending := s.pending ++ [c] }) ∧
  (∀ (s : State) is, s.load is = { s with pending := s.pending ++ is.map encodeCommand })
end

