-- ==== Sys2Proof/Laws/State.lean ====
section
/-! SUPPORT. One lemma per field of State for each operation that updates a state. -/

namespace Sys2Proof.Machine

section Complete
variable (r : ResultRecord) (s : State)

theorem complete_eq_after : s.complete r = s.after r := rfl
@[simp] theorem complete_params : (s.complete r).params = s.params := rfl
@[simp] theorem complete_pending : (s.complete r).pending = s.pending := rfl
@[simp] theorem complete_res : (s.complete r).res = r := rfl
@[simp] theorem complete_results : (s.complete r).results = s.results ++ [r] := rfl
@[simp] theorem complete_hidden : (s.complete r).hidden = none := rfl
@[simp] theorem after_params : (s.after r).params = s.params := rfl
@[simp] theorem after_pending : (s.after r).pending = s.pending := rfl
@[simp] theorem after_res : (s.after r).res = r := rfl
@[simp] theorem after_results : (s.after r).results = s.results ++ [r] := rfl
@[simp] theorem after_hidden : (s.after r).hidden = none := rfl

end Complete

section Reset
variable (p : Params) (s : State)

@[simp] theorem resetOf_params : (State.resetOf p).params = p := rfl
@[simp] theorem resetOf_pending : (State.resetOf p).pending = [] := rfl
@[simp] theorem resetOf_res : (State.resetOf p).res = ResultRecord.reset := rfl
@[simp] theorem resetOf_results : (State.resetOf p).results = [] := rfl
@[simp] theorem resetOf_hidden : (State.resetOf p).hidden = none := rfl
theorem resetNow_eq : s.resetNow = State.resetOf s.params := rfl

end Reset

section Collaborator
variable (c : Command) (s : State) (nbits w : Nat)

@[simp] theorem issue_params : (s.issue c).params = s.params := rfl
@[simp] theorem issue_pending : (s.issue c).pending = s.pending ++ [c] := rfl
@[simp] theorem issue_res : (s.issue c).res = s.res := rfl
@[simp] theorem issue_results : (s.issue c).results = s.results := rfl
@[simp] theorem issue_hidden : (s.issue c).hidden = s.hidden := rfl
/-- Everything a withdrawal can do: the next command is refused and leaves, or nothing changes. -/
theorem withdraw_cases :
    (∃ r, step s = .refused r ∧ s.withdraw = { s with pending := s.pending.tail }) ∨
    ((∀ r, step s ≠ .refused r) ∧ s.withdraw = s) := by
  unfold State.withdraw
  cases h : step s with
  | refused r => exact .inl ⟨r, rfl, rfl⟩
  | next t => exact .inr ⟨fun _ h => (nomatch h), rfl⟩
  | fault f => exact .inr ⟨fun _ h => (nomatch h), rfl⟩
theorem withdraw_refused {s : State} {r : Refusal} (h : step s = .refused r) :
    s.withdraw = { s with pending := s.pending.tail } := by rw [State.withdraw, h]
theorem withdraw_next {s t : State} (h : step s = .next t) : s.withdraw = s := by
  rw [State.withdraw, h]
@[simp] theorem withdraw_params : s.withdraw.params = s.params := by
  obtain ⟨_, -, h⟩ | ⟨-, h⟩ := withdraw_cases s <;> rw [h]
@[simp] theorem withdraw_res : s.withdraw.res = s.res := by
  obtain ⟨_, -, h⟩ | ⟨-, h⟩ := withdraw_cases s <;> rw [h]
@[simp] theorem withdraw_results : s.withdraw.results = s.results := by
  obtain ⟨_, -, h⟩ | ⟨-, h⟩ := withdraw_cases s <;> rw [h]
@[simp] theorem withdraw_hidden : s.withdraw.hidden = s.hidden := by
  obtain ⟨_, -, h⟩ | ⟨-, h⟩ := withdraw_cases s <;> rw [h]
@[simp] theorem load_params (is : List Instr) : (s.load is).params = s.params := rfl
@[simp] theorem load_pending (is : List Instr) :
    (s.load is).pending = s.pending ++ is.map encodeCommand := rfl
@[simp] theorem load_res (is : List Instr) : (s.load is).res = s.res := rfl
@[simp] theorem load_results (is : List Instr) : (s.load is).results = s.results := rfl
@[simp] theorem load_hidden (is : List Instr) : (s.load is).hidden = s.hidden := rfl
@[simp] theorem withFetchWord_pending :
    (s.withFetchWord nbits w).pending = commandOfWord nbits w :: s.pending := rfl
@[simp] theorem withFetchWord_params : (s.withFetchWord nbits w).params = s.params := rfl
@[simp] theorem withFetchWord_res : (s.withFetchWord nbits w).res = s.res := rfl
@[simp] theorem withFetchWord_results : (s.withFetchWord nbits w).results = s.results := rfl
@[simp] theorem withFetchWord_hidden : (s.withFetchWord nbits w).hidden = s.hidden := rfl

end Collaborator

end Sys2Proof.Machine
end

