-- ==== Sys2Proof/Laws/Ops.lean ====
section
/-! SUPPORT. What each shared operation can do: admission, reading an element, ending a command, and
the numeric fields as naturals. -/

namespace Sys2Proof.Machine

theorem fits_iff {α : Type} (xs : List α) (n : Nat) : fits xs n = true ↔ xs.length ≤ n := by
  induction xs generalizing n with
  | nil => simp [fits]
  | cons x xs ih =>
    cases n with
    | zero => simp [fits]
    | succ n => simp [fits, ih]

theorem readElem_of_get {α : Type} {xs : List α} {i : Nat} {x : α} (h : xs[i]? = some x) :
    readElem xs i = .ok x := by
  simp [readElem, h]

theorem readElem_eq_ok {α : Type} {xs : List α} {i : Nat} {x : α} :
    readElem xs i = .ok x ↔ xs[i]? = some x := by
  unfold readElem
  split <;> simp_all

@[simp] theorem orFault_ok {α : Type} (a : α) : orFault (.ok a) = .ok a := rfl
@[simp] theorem orFault_error {α : Type} (f : Fault) :
    orFault (.error f : Except Fault α) = .error (.fault f) := rfl

theorem endEncode_ok (acc : List CodePoint) (s : State) :
    s.endEncode (.ok acc) = .next (s.after (okRecord 0 (.codePoints acc))) := rfl

theorem endDecode_ok (acc : List Byte) (s : State) :
    s.endDecode (.ok acc) = .next (s.after (okRecord 1 (.bytes acc))) := rfl

theorem endDecode_fail (e : DecodeFail) (s : State) :
    s.endDecode (.error (.fail e)) = .next (s.after (failRecord e)) := rfl

/-! The numeric fields of rule R67 as naturals. -/

theorem pairValue_toNat (b0 b1 : Byte) : (pairValue b0 b1).toNat = b0.toNat * 256 + b1.toNat := by
  have h0 := b0.isLt
  have h1 := b1.isLt
  simp only [pairValue, BitVec.toNat_ofNat]
  omega

theorem lowDigit_toNat (v : PairValue) : (lowDigit v).toNat = v.toNat % 48 := by
  simp only [lowDigit, BitVec.toNat_ofNat]
  omega

theorem quotient_toNat (v : PairValue) : (quotient v).toNat = v.toNat / 48 := by
  have h := v.isLt
  simp only [quotient, BitVec.toNat_ofNat]
  omega

theorem midDigit_toNat (q : Quotient) : (midDigit q).toNat = q.toNat % 48 := by
  simp only [midDigit, BitVec.toNat_ofNat]
  omega

theorem highDigit_toNat (q : Quotient) : (highDigit q).toNat = q.toNat / 48 := by
  have h := q.isLt
  simp only [highDigit, BitVec.toNat_ofNat]
  omega

theorem tripletValue_toNat {d0 d1 d2 : Digit} (h0 : d0.toNat < 48) (h1 : d1.toNat < 48)
    (h2 : d2.toNat < 48) :
    (tripletValue d0 d1 d2).toNat = d0.toNat * 2304 + d1.toNat * 48 + d2.toNat := by
  simp only [tripletValue, BitVec.toNat_ofNat]
  omega

theorem highByte_toNat (v : TripletValue) : (highByte v).toNat = v.toNat / 256 % 256 := by
  simp [highByte, Nat.shiftRight_eq_div_pow]

theorem lowByte_toNat (v : TripletValue) : (lowByte v).toNat = v.toNat % 256 := by
  simp [lowByte]

theorem highNibble_toNat (b : Byte) : (highNibble b).toNat = b.toNat / 16 := by
  have h := b.isLt
  simp only [highNibble, BitVec.extractLsb'_toNat, Nat.shiftRight_eq_div_pow]
  omega

theorem lowNibble_toNat (b : Byte) : (lowNibble b).toNat = b.toNat % 16 := by
  simp [lowNibble]

theorem padByte_toNat (h l : Nibble) : (padByte h l).toNat = h.toNat * 16 + l.toNat := by
  revert h l
  decide

end Sys2Proof.Machine
end

