-- ==== Sys2Proof/Laws/Alphabet.lean ====
section
/-! SUPPORT. The Alphabet Table: its members by the spec's notations `P(d)` and `Q(n)`, their
disjointness (rule R86), and what each table operation gives (rules R80 to R83). -/

namespace Sys2Proof.Machine

variable (p : Params)

/-- Rule R85, one condition a name. -/
theorem params_w1 : p.alphabet.W1 := p.ok.1
theorem params_w2 : p.alphabet.W2 := p.ok.2.1
theorem params_w3 : p.alphabet.W3 := p.ok.2.2.1
theorem params_w4 (c : CodePoint) (h : c ∈ Config.whitespaceSet) :
    ¬ p.alphabet.IsPrimary c ∧ ¬ p.alphabet.IsPadding c := by
  have := List.all_eq_true.mp p.ok.2.2.2.1 c h
  simpa only [decide_eq_true_eq] using this

theorem P_run_toNat {d : Nat} (h : d ≤ 46) :
    (p.P d).toNat = p.alphabet.primaryBase.toNat + d := by
  have := params_w1 p
  simp only [Alphabet.W1] at this
  simp only [Params.P, h, if_true, BitVec.toNat_ofNat]
  omega

theorem P_extra : p.P 47 = p.alphabet.primaryExtra := rfl

theorem Q_toNat {n : Nat} (h : n < 16) : (p.Q n).toNat = p.alphabet.padBase.toNat + n := by
  have := (params_w3 p).1
  simp only [Params.Q, BitVec.toNat_ofNat]
  omega

/-- Digit `d` is in the run, or it is the extra point. -/
theorem digit_cases {d : Nat} (h : d < 48) : d ≤ 46 ∨ d = 47 := by omega

theorem inRun_P {d : Nat} (h : d ≤ 46) : p.alphabet.InRun (p.P d) := by
  have := P_run_toNat p h
  simp only [Alphabet.InRun]
  omega

theorem isPrimary_P {d : Nat} (h : d < 48) : p.alphabet.IsPrimary (p.P d) := by
  obtain h | rfl := digit_cases h
  · exact .inl (inRun_P p h)
  · exact .inr rfl

theorem isPadding_Q {n : Nat} (h : n < 16) : p.alphabet.IsPadding (p.Q n) := by
  have := Q_toNat p h
  simp only [Alphabet.IsPadding]
  omega

theorem isPrimary_iff (c : CodePoint) : p.alphabet.IsPrimary c ↔ ∃ d < 48, c = p.P d := by
  constructor
  · rintro (h | rfl)
    · simp only [Alphabet.InRun] at h
      refine ⟨c.toNat - p.alphabet.primaryBase.toNat, by omega, BitVec.eq_of_toNat_eq ?_⟩
      rw [P_run_toNat p (by omega)]
      omega
    · exact ⟨47, by omega, rfl⟩
  · rintro ⟨d, h, rfl⟩
    exact isPrimary_P p h

theorem isPadding_iff (c : CodePoint) : p.alphabet.IsPadding c ↔ ∃ n < 16, c = p.Q n := by
  constructor
  · intro h
    simp only [Alphabet.IsPadding] at h
    refine ⟨c.toNat - p.alphabet.padBase.toNat, by omega, BitVec.eq_of_toNat_eq ?_⟩
    rw [Q_toNat p (by omega)]
    omega
  · rintro ⟨n, h, rfl⟩
    exact isPadding_Q p h

theorem P_injective {d d' : Nat} (h : d < 48) (h' : d' < 48) (he : p.P d = p.P d') : d = d' := by
  have hw : ¬ p.alphabet.InRun (p.P 47) := (params_w2 p).2
  obtain h | rfl := digit_cases h <;> obtain h' | rfl := digit_cases h'
  · have := congrArg BitVec.toNat he
    rw [P_run_toNat p h, P_run_toNat p h'] at this
    omega
  · exact absurd (he ▸ inRun_P p h) hw
  · exact absurd (he ▸ inRun_P p h') hw
  · rfl

theorem Q_injective {n n' : Nat} (h : n < 16) (h' : n' < 16) (he : p.Q n = p.Q n') : n = n' := by
  have := congrArg BitVec.toNat he
  rw [Q_toNat p h, Q_toNat p h'] at this
  omega

/-- Primary and Padding are disjoint (W3). -/
theorem not_isPadding_of_isPrimary {c : CodePoint} (h : p.alphabet.IsPrimary c) :
    ¬ p.alphabet.IsPadding c := by
  obtain ⟨-, hd, hx⟩ := params_w3 p
  rintro hp
  rcases h with h | rfl
  · simp only [Alphabet.InRun] at h
    simp only [Alphabet.IsPadding] at hp
    omega
  · exact hx hp

theorem P_ne_Q {d n : Nat} (hd : d < 48) (hn : n < 16) : p.P d ≠ p.Q n := fun h =>
  not_isPadding_of_isPrimary p (isPrimary_P p hd) (h ▸ isPadding_Q p hn)

theorem P_not_whitespace {d : Nat} (h : d < 48) : p.P d ∉ Config.whitespaceSet := fun hw =>
  (params_w4 p _ hw).1 (isPrimary_P p h)

theorem Q_not_whitespace {n : Nat} (h : n < 16) : p.Q n ∉ Config.whitespaceSet := fun hw =>
  (params_w4 p _ hw).2 (isPadding_Q p h)

/-! The operations. -/

theorem romRead_eq_P {d : Digit} (h : d.toNat < 48) : romRead p d = .ok (p.P d.toNat) := by
  unfold romRead Params.P
  split
  · rfl
  · rw [if_pos (by omega)]

theorem romRead_fault {d : Digit} (h : 48 ≤ d.toNat) : romRead p d = .error .romAddress := by
  unfold romRead
  rw [if_neg (by omega), if_neg (by omega)]

theorem romRead_eq_ok {d : Digit} {c : CodePoint} :
    romRead p d = .ok c ↔ d.toNat < 48 ∧ c = p.P d.toNat := by
  by_cases h : d.toNat < 48
  · rw [romRead_eq_P p h]
    simp only [Except.ok.injEq, h, true_and]
    exact eq_comm
  · rw [romRead_fault p (by omega)]
    simp [h]

theorem padRead_eq_Q (n : Nibble) : padRead p n = p.Q n.toNat := rfl

theorem revLookup_P {d : Nat} (h : d < 48) : revLookup p (p.P d) = some (BitVec.ofNat 6 d) := by
  unfold revLookup
  obtain h | rfl := digit_cases h
  · rw [if_pos (inRun_P p h), P_run_toNat p h]
    simp
  · have hw : ¬ p.alphabet.InRun (p.P 47) := (params_w2 p).2
    rw [if_neg hw, if_pos (P_extra p)]
    rfl

theorem revLookup_eq_none {c : CodePoint} (h : ¬ p.alphabet.IsPrimary c) :
    revLookup p c = none := by
  unfold revLookup
  rw [if_neg fun hr => h (.inl hr), if_neg fun he => h (.inr he)]

theorem revLookup_eq_some {c : CodePoint} {d : Digit} :
    revLookup p c = some d ↔ d.toNat < 48 ∧ c = p.P d.toNat := by
  constructor
  · intro h
    by_cases hc : p.alphabet.IsPrimary c
    · obtain ⟨e, he, rfl⟩ := (isPrimary_iff p c).1 hc
      rw [revLookup_P p he] at h
      obtain rfl := Option.some.inj h
      rw [BitVec.toNat_ofNat, Nat.mod_eq_of_lt (by omega)]
      exact ⟨he, rfl⟩
    · rw [revLookup_eq_none p hc] at h
      cases h
  · rintro ⟨h, rfl⟩
    rw [revLookup_P p h, BitVec.ofNat_toNat, BitVec.setWidth_eq]

theorem classify_whitespace {c : CodePoint} (h : c ∈ Config.whitespaceSet) :
    classify p c = .whitespace := by
  unfold classify
  rw [if_pos h]

theorem classify_Q {n : Nat} (h : n < 16) : classify p (p.Q n) = .padding (BitVec.ofNat 4 n) := by
  unfold classify
  rw [if_neg (Q_not_whitespace p h), if_pos (isPadding_Q p h), Q_toNat p h]
  simp

theorem classify_P {d : Nat} (h : d < 48) : classify p (p.P d) = .primary (BitVec.ofNat 6 d) := by
  unfold classify
  rw [if_neg (P_not_whitespace p h),
    if_neg (not_isPadding_of_isPrimary p (isPrimary_P p h)), revLookup_P p h]

theorem classify_invalid {c : CodePoint} (hw : c ∉ Config.whitespaceSet)
    (hq : ¬ p.alphabet.IsPadding c) (hp : ¬ p.alphabet.IsPrimary c) : classify p c = .invalid := by
  unfold classify
  rw [if_neg hw, if_neg hq, revLookup_eq_none p hp]

/-- Every code point is of exactly one of the four kinds (rule R83). -/
theorem codePoint_cases (c : CodePoint) :
    (c ∈ Config.whitespaceSet ∧ classify p c = .whitespace) ∨
    (∃ n < 16, c = p.Q n ∧ classify p c = .padding (BitVec.ofNat 4 n)) ∨
    (∃ d < 48, c = p.P d ∧ classify p c = .primary (BitVec.ofNat 6 d)) ∨
    (¬ p.alphabet.IsPrimary c ∧ ¬ p.alphabet.IsPadding c ∧ c ∉ Config.whitespaceSet ∧
      classify p c = .invalid) := by
  by_cases hw : c ∈ Config.whitespaceSet
  · exact .inl ⟨hw, classify_whitespace p hw⟩
  by_cases hq : p.alphabet.IsPadding c
  · obtain ⟨n, hn, rfl⟩ := (isPadding_iff p c).1 hq
    exact .inr (.inl ⟨n, hn, rfl, classify_Q p hn⟩)
  by_cases hp : p.alphabet.IsPrimary c
  · obtain ⟨d, hd, rfl⟩ := (isPrimary_iff p c).1 hp
    exact .inr (.inr (.inl ⟨d, hd, rfl, classify_P p hd⟩))
  exact .inr (.inr (.inr ⟨hp, hq, hw, classify_invalid p hw hq hp⟩))

theorem classify_eq_whitespace {c : CodePoint} :
    classify p c = .whitespace ↔ c ∈ Config.whitespaceSet := by
  refine ⟨fun h => ?_, classify_whitespace p⟩
  obtain h' | ⟨n, -, -, h'⟩ | ⟨d, -, -, h'⟩ | ⟨-, -, -, h'⟩ := codePoint_cases p c
  · exact h'.1
  all_goals rw [h] at h'; cases h'

theorem classify_eq_primary {c : CodePoint} {d : Digit} :
    classify p c = .primary d ↔ d.toNat < 48 ∧ c = p.P d.toNat := by
  constructor
  · intro h
    obtain h' | ⟨n, -, -, h'⟩ | ⟨e, he, hc, h'⟩ | ⟨-, -, -, h'⟩ := codePoint_cases p c
    · rw [h] at h'; cases h'.2
    · rw [h] at h'; cases h'
    · rw [h] at h'
      obtain rfl := Class.primary.inj h'
      rw [BitVec.toNat_ofNat, Nat.mod_eq_of_lt (by omega)]
      exact ⟨he, hc⟩
    · rw [h] at h'; cases h'
  · rintro ⟨h, rfl⟩
    rw [classify_P p h, BitVec.ofNat_toNat, BitVec.setWidth_eq]

theorem classify_eq_padding {c : CodePoint} {n : Nibble} :
    classify p c = .padding n ↔ c = p.Q n.toNat := by
  constructor
  · intro h
    obtain h' | ⟨m, hm, hc, h'⟩ | ⟨e, -, -, h'⟩ | ⟨-, -, -, h'⟩ := codePoint_cases p c
    · rw [h] at h'; cases h'.2
    · rw [h] at h'
      obtain rfl := Class.padding.inj h'
      rw [BitVec.toNat_ofNat, Nat.mod_eq_of_lt (by omega)]
      exact hc
    · rw [h] at h'; cases h'
    · rw [h] at h'; cases h'
  · rintro rfl
    rw [classify_Q p n.isLt, BitVec.ofNat_toNat, BitVec.setWidth_eq]

theorem isPadClass_iff {c : CodePoint} : isPadClass p c = true ↔ p.alphabet.IsPadding c := by
  rw [isPadding_iff]
  unfold isPadClass
  obtain ⟨hw, h⟩ | ⟨n, hn, hc, h⟩ | ⟨e, he, hc, h⟩ | ⟨-, hq, -, h⟩ := codePoint_cases p c
  · rw [h]
    simp only [Bool.false_eq_true, false_iff]
    exact fun hp => (params_w4 p c hw).2 ((isPadding_iff p c).2 hp)
  · rw [h]
    simp only [true_iff]
    exact ⟨n, hn, hc⟩
  · rw [h]
    simp only [Bool.false_eq_true, false_iff]
    rintro ⟨n, hn, hc'⟩
    exact P_ne_Q p he hn (hc ▸ hc')
  · rw [h]
    simp only [Bool.false_eq_true, false_iff]
    exact fun hp => hq ((isPadding_iff p c).2 hp)

end Sys2Proof.Machine
end

