-- ==== Sys2Proof/Laws/Encoder.lean ====
section
/-! SUPPORT. ENCODE as a function on the input: the text of a byte sequence, the proof that the stages
compute it, and what `exec` answers. -/

namespace Sys2Proof.Machine

variable (p : Params)

/-- The text of a byte sequence: three Primary code points a pair, two Padding ones for a last odd
byte (rules R90, R91, R93). -/
def encText : List Byte → List CodePoint
  | b0 :: b1 :: rest =>
    p.P ((b0.toNat * 256 + b1.toNat) / 48 / 48) :: p.P ((b0.toNat * 256 + b1.toNat) / 48 % 48) ::
      p.P ((b0.toNat * 256 + b1.toNat) % 48) :: encText rest
  | [b] => [p.Q (b.toNat / 16), p.Q (b.toNat % 16)]
  | [] => []

/-- Induction over a list two elements at a time, the cases being those of ENCODE. -/
theorem pairs_induction {α : Type} {motive : List α → Prop} (nil : motive [])
    (tail : ∀ a, motive [a]) (pair : ∀ a b xs, motive xs → motive (a :: b :: xs)) :
    ∀ xs, motive xs
  | [] => nil
  | [a] => tail a
  | a :: b :: xs => pair a b xs (pairs_induction nil tail pair xs)

theorem encText_append {xs : List Byte} (ys : List Byte) (h : xs.length % 2 = 0) :
    encText p (xs ++ ys) = encText p xs ++ encText p ys := by
  induction xs using pairs_induction with
  | nil => rfl
  | tail a => simp at h
  | pair a b xs ih =>
    simp only [List.cons_append, encText, ih (by simp only [List.length_cons] at h; omega)]

theorem encText_length (xs : List Byte) :
    (encText p xs).length = 3 * (xs.length / 2) + 2 * (xs.length % 2) := by
  induction xs using pairs_induction with
  | nil => rfl
  | tail a => simp [encText]
  | pair a b xs ih => simp only [encText, List.length_cons, ih]; omega

/-- `ENC_PAIR` appends the text of its two bytes. -/
theorem encPair_eq (b0 b1 : Byte) (sc : EncScratch) :
    ∃ sc', encPair p b0 b1 sc = .ok sc' ∧ sc'.k = sc.k ∧ sc'.acc = sc.acc ++ encText p [b0, b1] := by
  have hv := pairValue_toNat b0 b1
  have h2 := lowDigit_toNat (pairValue b0 b1)
  have h1 := midDigit_toNat (quotient (pairValue b0 b1))
  have h0 := highDigit_toNat (quotient (pairValue b0 b1))
  rw [quotient_toNat, hv] at h0 h1
  rw [hv] at h2
  have hb0 := b0.isLt
  have hb1 := b1.isLt
  simp only [encPair]
  rw [romRead_eq_P p (d := highDigit _) (by omega), romRead_eq_P p (d := midDigit _) (by omega),
    romRead_eq_P p (d := lowDigit _) (by omega), h0, h1, h2]
  exact ⟨_, rfl, rfl, rfl⟩

/-- A turn at cursor `k` appends the text of pair `k` and moves the cursor on. -/
theorem encTurn_eq {input : List Byte} {sc : EncScratch} {b0 b1 : Byte}
    (h0 : input[2 * sc.k]? = some b0) (h1 : input[2 * sc.k + 1]? = some b1) :
    ∃ sc', encTurn p input sc = .ok sc' ∧ sc'.k = sc.k + 1 ∧
      sc'.acc = sc.acc ++ encText p [b0, b1] := by
  obtain ⟨sc', h, hk, hacc⟩ := encPair_eq p b0 b1 sc
  refine ⟨{ sc' with k := sc'.k + 1 }, ?_, by rw [hk], hacc⟩
  unfold encTurn
  rw [readElem_of_get h0, readElem_of_get h1]
  simp only [h]

/-- The loop appends the text of the pairs it covers. -/
theorem encLoop_eq (input : List Byte) (turns : Nat) (sc : EncScratch)
    (h : 2 * (sc.k + turns) ≤ input.length) :
    ∃ sc', encLoop p input turns sc = .ok sc' ∧ sc'.k = sc.k + turns ∧
      sc'.acc = sc.acc ++ encText p ((input.drop (2 * sc.k)).take (2 * turns)) := by
  induction turns generalizing sc with
  | zero => exact ⟨sc, rfl, rfl, by simp [encText]⟩
  | succ turns ih =>
    have hlt0 : 2 * sc.k < input.length := by omega
    have hlt1 : 2 * sc.k + 1 < input.length := by omega
    obtain ⟨sc1, h1, hk1, hacc1⟩ := encTurn_eq p (sc := sc)
      (List.getElem?_eq_getElem hlt0) (List.getElem?_eq_getElem hlt1)
    obtain ⟨sc2, h2, hk2, hacc2⟩ := ih sc1 (by omega)
    refine ⟨sc2, by simp only [encLoop, h1, h2], by omega, ?_⟩
    have hdrop : (input.drop (2 * sc.k)).take (2 * (turns + 1)) =
        [input[2 * sc.k], input[2 * sc.k + 1]] ++ (input.drop (2 * sc1.k)).take (2 * turns) := by
      rw [List.drop_eq_getElem_cons hlt0, List.drop_eq_getElem_cons hlt1,
        show 2 * (turns + 1) = 2 * turns + 1 + 1 by omega, hk1,
        show 2 * (sc.k + 1) = 2 * sc.k + 1 + 1 by omega]
      rfl
    rw [hacc2, hacc1, hdrop, encText_append p _ (by simp), List.append_assoc]

/-- After the loop, the tail completes the text. -/
theorem encFinish_eq {input : List Byte} {sc : EncScratch}
    (h : sc.acc = encText p (input.take (2 * (input.length / 2)))) :
    encFinish p input sc = .ok (encText p input) := by
  have hsplit := encText_append p (xs := input.take (2 * (input.length / 2)))
    (input.drop (2 * (input.length / 2))) (by rw [List.length_take]; omega)
  rw [List.take_append_drop] at hsplit
  unfold encFinish
  split
  · next hodd =>
    have hlt : input.length - 1 < input.length := by omega
    rw [readElem_of_get (List.getElem?_eq_getElem hlt)]
    have htail : input.drop (2 * (input.length / 2)) = [input[input.length - 1]] := by
      rw [show 2 * (input.length / 2) = input.length - 1 by omega, List.drop_eq_getElem_cons hlt]
      simp [show input.length - 1 + 1 = input.length by omega]
    rw [hsplit, htail]
    simp only [encTail, h, padRead_eq_Q, highNibble_toNat, lowNibble_toNat, encText]
  · next heven =>
    rw [hsplit, List.drop_of_length_le (by omega), h]
    simp [encText]

/-- The stages of ENCODE give the text of the input, and never fault (rules R90, R92). -/
theorem encStages_eq (input : List Byte) : encStages p input = .ok (encText p input) := by
  obtain ⟨sc, h, -, hacc⟩ := encLoop_eq p input (input.length / 2) EncScratch.fresh
    (by simp only [EncScratch.fresh]; omega)
  unfold encStages
  rw [h]
  exact encFinish_eq p (by rw [hacc]; rfl)

theorem exec_encode_admitted {input : List Byte} {s : State}
    (h : input.length ≤ s.params.maxEncBytes) :
    exec (.encode input) s =
      .next (s.after (okRecord 0 (.codePoints (encText s.params input)))) := by
  show execEncode input s = _
  rw [execEncode, if_pos ((fits_iff _ _).2 h), encStages_eq, endEncode_ok]

theorem exec_encode_refused {input : List Byte} {s : State}
    (h : s.params.maxEncBytes < input.length) :
    exec (.encode input) s = .refused .overCapacity := by
  show execEncode input s = _
  rw [execEncode, if_neg]
  rw [fits_iff]
  omega

end Sys2Proof.Machine
end

