-- ==== Sys2Proof/Laws/Decoder.lean ====
section
/-! SUPPORT. DECODE: what each stage gives, where the loop stops, and the three ways a DECODE can end.
A success is stated through ENCODE's text: the bytes given are those whose text is the working
sequence. -/

namespace Sys2Proof.Machine

variable (p : Params)

theorem wsFilter_eq (input : List CodePoint) : wsFilter p input = workingSequence input := by
  induction input with
  | nil => rfl
  | cons c cs ih =>
    unfold wsFilter workingSequence
    rw [ih]
    by_cases h : c ∈ Config.whitespaceSet
    · rw [if_pos ((classify_eq_whitespace p).2 h), List.filter_cons_of_neg (by simpa using h)]
      rfl
    · rw [if_neg (mt (classify_eq_whitespace p).1 h), List.filter_cons_of_pos (by simpa using h)]
      rfl

theorem workingSequence_length_le (input : List CodePoint) :
    (workingSequence input).length ≤ input.length := List.length_filter_le _ _

/-! Step 2. -/

theorem padDetect_pair {front : List CodePoint} {c0 c1 : CodePoint}
    (h0 : p.alphabet.IsPadding c0) (h1 : p.alphabet.IsPadding c1) :
    padDetect p (front ++ [c0, c1]) = (front, some (c0, c1)) := by
  have e0 : (front ++ [c0, c1])[(front ++ [c0, c1]).length - 2]? = some c0 := by simp
  have e1 : (front ++ [c0, c1])[(front ++ [c0, c1]).length - 1]? = some c1 := by
    simp
  unfold padDetect
  rw [if_pos (by simp), e0, e1]
  simp [(isPadClass_iff p).2 h0, (isPadClass_iff p).2 h1]

/-- A list of at least two elements ends in its last two. -/
theorem eq_front_append_pair {α : Type} {w : List α} {c0 c1 : α}
    (h0 : w[w.length - 2]? = some c0) (h1 : w[w.length - 1]? = some c1) (hl : 2 ≤ w.length) :
    w = w.take (w.length - 2) ++ [c0, c1] := by
  have hlt0 : w.length - 2 < w.length := by omega
  have hlt1 : w.length - 1 < w.length := by omega
  conv_lhs => rw [← List.take_append_drop (w.length - 2) w]
  rw [List.getElem?_eq_getElem hlt0] at h0
  rw [List.getElem?_eq_getElem hlt1] at h1
  rw [List.drop_eq_getElem_cons hlt0, Option.some.inj h0]
  congr 2
  have : w.length - 2 + 1 = w.length - 1 := by omega
  rw [this, List.drop_eq_getElem_cons hlt1, Option.some.inj h1,
    List.drop_of_length_le (by omega)]

theorem padDetect_none {w : List CodePoint} (h : ¬ EndsInPair p w) : padDetect p w = (w, none) := by
  unfold padDetect
  split
  · next hl =>
    split
    · next c0 c1 h0 h1 =>
      split
      · next hc =>
        rw [Bool.and_eq_true, isPadClass_iff, isPadClass_iff] at hc
        exact absurd ⟨_, c0, c1, eq_front_append_pair h0 h1 hl, hc.1, hc.2⟩ h
      · rfl
    · rfl
  · rfl

/-- The two ways Step 2 can end (rule R102). -/
theorem padDetect_cases (w : List CodePoint) :
    (∃ front c0 c1, w = front ++ [c0, c1] ∧ p.alphabet.IsPadding c0 ∧ p.alphabet.IsPadding c1 ∧
      padDetect p w = (front, some (c0, c1))) ∨
    (¬ EndsInPair p w ∧ padDetect p w = (w, none)) := by
  by_cases h : EndsInPair p w
  · obtain ⟨front, c0, c1, rfl, h0, h1⟩ := h
    exact .inl ⟨front, c0, c1, rfl, h0, h1, padDetect_pair p h0 h1⟩
  · exact .inr ⟨h, padDetect_none p h⟩

theorem padDetect_group {w g : List CodePoint} (h : IsPrimaryGroup p w g) :
    (padDetect p w).1 = g := by
  obtain ⟨c0, c1, rfl, h0, h1⟩ | ⟨rfl, h⟩ := h
  · rw [padDetect_pair p h0 h1]
  · rw [padDetect_none p h]

/-! Step 3: one triplet. -/

theorem digitAt_P {g : List CodePoint} {i d : Nat} (hd : d < 48) (h : g[i]? = some (p.P d)) :
    digitAt p g i = .ok (BitVec.ofNat 6 d) := by
  unfold digitAt
  rw [readElem_of_get h, orFault_ok]
  simp only [classify_P p hd]

theorem digitAt_bad {g : List CodePoint} {i : Nat} {c : CodePoint} (h : g[i]? = some c)
    (hc : ¬ p.alphabet.IsPrimary c) :
    digitAt p g i = .error (.fail (.invalidCharacter c i)) := by
  unfold digitAt
  rw [readElem_of_get h, orFault_ok]
  obtain ⟨-, e⟩ | ⟨n, -, -, e⟩ | ⟨d, hd, rfl, -⟩ | ⟨-, -, -, e⟩ := codePoint_cases p c
  · simp only [e]
  · simp only [e]
  · exact absurd (isPrimary_P p hd) hc
  · simp only [e]

theorem tripClassify_P {g : List CodePoint} {t d0 d1 d2 : Nat} (h0 : d0 < 48) (h1 : d1 < 48)
    (h2 : d2 < 48) (e0 : g[3 * t]? = some (p.P d0)) (e1 : g[3 * t + 1]? = some (p.P d1))
    (e2 : g[3 * t + 2]? = some (p.P d2)) :
    tripClassify p g t = .ok (BitVec.ofNat 6 d0, BitVec.ofNat 6 d1, BitVec.ofNat 6 d2) := by
  unfold tripClassify
  rw [digitAt_P p h0 e0, digitAt_P p h1 e1, digitAt_P p h2 e2]

/-- The first element of a triplet that is not Primary is the one reported (rule R104). -/
theorem tripClassify_bad {g : List CodePoint} {t j : Nat} {c : CodePoint} (hj : j < 3)
    (hbefore : ∀ j' < j, ∃ c', g[3 * t + j']? = some c' ∧ p.alphabet.IsPrimary c')
    (hc : g[3 * t + j]? = some c) (hbad : ¬ p.alphabet.IsPrimary c) :
    tripClassify p g t = .error (.fail (.invalidCharacter c (3 * t + j))) := by
  have hok : ∀ j' < j, ∃ d, digitAt p g (3 * t + j') = .ok d := by
    intro j' hj'
    obtain ⟨c', he, hp⟩ := hbefore j' hj'
    obtain ⟨d, hd, rfl⟩ := (isPrimary_iff p c').1 hp
    exact ⟨_, digitAt_P p hd he⟩
  have herr := digitAt_bad p hc hbad
  unfold tripClassify
  obtain rfl | rfl | rfl : j = 0 ∨ j = 1 ∨ j = 2 := by omega
  · rw [Nat.add_zero] at herr ⊢
    simp only [herr, Nat.add_zero]
  · obtain ⟨d, hd⟩ := hok 0 (by omega)
    rw [Nat.add_zero] at hd
    rw [hd, herr]
  · obtain ⟨d, hd⟩ := hok 0 (by omega)
    obtain ⟨d', hd'⟩ := hok 1 (by omega)
    rw [Nat.add_zero] at hd
    rw [hd, hd', herr]

theorem digits_value {d0 d1 d2 : Nat} (h0 : d0 < 48) (h1 : d1 < 48) (h2 : d2 < 48) :
    (tripletValue (BitVec.ofNat 6 d0) (BitVec.ofNat 6 d1) (BitVec.ofNat 6 d2)).toNat =
      d0 * 2304 + d1 * 48 + d2 := by
  have e : ∀ d < 48, (BitVec.ofNat 6 d).toNat = d := fun d hd => by
    rw [BitVec.toNat_ofNat]; omega
  rw [tripletValue_toNat (by rw [e _ h0]; exact h0) (by rw [e _ h1]; exact h1)
    (by rw [e _ h2]; exact h2), e _ h0, e _ h1, e _ h2]

/-- The two bytes of a value of at most 65535 have that value's digits as their text. -/
theorem encText_of_value {d0 d1 d2 : Nat} (h1 : d1 < 48) (h2 : d2 < 48)
    (hv : d0 * 2304 + d1 * 48 + d2 ≤ 65535) {v : TripletValue}
    (he : v.toNat = d0 * 2304 + d1 * 48 + d2) :
    encText p [highByte v, lowByte v] = [p.P d0, p.P d1, p.P d2] := by
  have e : (highByte v).toNat * 256 + (lowByte v).toNat = d0 * 2304 + d1 * 48 + d2 := by
    rw [highByte_toNat, lowByte_toNat]
    omega
  simp only [encText, e]
  rw [show (d0 * 2304 + d1 * 48 + d2) / 48 / 48 = d0 by omega,
    show (d0 * 2304 + d1 * 48 + d2) / 48 % 48 = d1 by omega,
    show (d0 * 2304 + d1 * 48 + d2) % 48 = d2 by omega]

/-- A turn on a triplet that passes appends the two bytes whose text the triplet is. -/
theorem decTurn_pass {sc : DecScratch} (h : TripletPasses p sc.g sc.t) :
    ∃ sc' b0 b1, decTurn p sc = .ok sc' ∧ sc'.w = sc.w ∧ sc'.g = sc.g ∧ sc'.pp = sc.pp ∧
      sc'.t = sc.t + 1 ∧ sc'.acc = sc.acc ++ [b0, b1] ∧
      encText p [b0, b1] = (sc.g.drop (3 * sc.t)).take 3 := by
  obtain ⟨c0, c1, c2, e0, e1, e2, d0, d1, d2, h0, h1, h2, rfl, rfl, rfl, hv⟩ := h
  have hval := digits_value h0 h1 h2
  let v := tripletValue (BitVec.ofNat 6 d0) (BitVec.ofNat 6 d1) (BitVec.ofNat 6 d2)
  refine ⟨{ sc with
      t := sc.t + 1, v := v, d0 := BitVec.ofNat 6 d0, d1 := BitVec.ofNat 6 d1
      d2 := BitVec.ofNat 6 d2, acc := tripEmit v sc.acc }, highByte v, lowByte v, ?_⟩
  refine ⟨?_, rfl, rfl, rfl, rfl, rfl, ?_⟩
  · unfold decTurn
    rw [tripClassify_P p h0 h1 h2 e0 e1 e2]
    simp only [rangeCheck, hval, if_neg (Nat.not_lt.2 hv)]
    rfl
  · rw [encText_of_value p h1 h2 hv hval]
    have l0 := (List.getElem?_eq_some_iff.1 e0)
    have l1 := (List.getElem?_eq_some_iff.1 e1)
    have l2 := (List.getElem?_eq_some_iff.1 e2)
    obtain ⟨l0, e0⟩ := l0
    obtain ⟨l1, e1⟩ := l1
    obtain ⟨l2, e2⟩ := l2
    rw [List.drop_eq_getElem_cons l0, List.drop_eq_getElem_cons l1, List.drop_eq_getElem_cons l2,
      e0, e1, e2]
    rfl

theorem decTurn_bad {sc : DecScratch} {j : Nat} {c : CodePoint} (hj : j < 3)
    (hbefore : ∀ j' < j, ∃ c', sc.g[3 * sc.t + j']? = some c' ∧ p.alphabet.IsPrimary c')
    (hc : sc.g[3 * sc.t + j]? = some c) (hbad : ¬ p.alphabet.IsPrimary c) :
    decTurn p sc = .error (.fail (.invalidCharacter c (3 * sc.t + j))) := by
  unfold decTurn
  rw [tripClassify_bad p hj hbefore hc hbad]

theorem decTurn_range {sc : DecScratch} {d0 d1 d2 : Nat} (h0 : d0 < 48) (h1 : d1 < 48)
    (h2 : d2 < 48) (e0 : sc.g[3 * sc.t]? = some (p.P d0)) (e1 : sc.g[3 * sc.t + 1]? = some (p.P d1))
    (e2 : sc.g[3 * sc.t + 2]? = some (p.P d2)) (hv : 65535 < d0 * 2304 + d1 * 48 + d2) :
    decTurn p sc =
      .error (.fail (.valueOutOfRange (BitVec.ofNat 17 (d0 * 2304 + d1 * 48 + d2)) (3 * sc.t))) := by
  have hval := digits_value h0 h1 h2
  unfold decTurn
  rw [tripClassify_P p h0 h1 h2 e0 e1 e2]
  simp only [rangeCheck, hval, if_pos hv]
  rw [← hval, BitVec.ofNat_toNat, BitVec.setWidth_eq]

/-- Every triplet of a group passes, has a first bad character, or is out of range. -/
theorem triplet_cases {g : List CodePoint} {t : Nat} (ht : t < g.length / 3) :
    TripletPasses p g t ∨
    (∃ j c, j < 3 ∧ (∀ j' < j, ∃ c', g[3 * t + j']? = some c' ∧ p.alphabet.IsPrimary c') ∧
      g[3 * t + j]? = some c ∧ ¬ p.alphabet.IsPrimary c) ∨
    (∃ d0 d1 d2 : Nat, d0 < 48 ∧ d1 < 48 ∧ d2 < 48 ∧ g[3 * t]? = some (p.P d0) ∧
      g[3 * t + 1]? = some (p.P d1) ∧ g[3 * t + 2]? = some (p.P d2) ∧
      65535 < d0 * 2304 + d1 * 48 + d2) := by
  have e0 := List.getElem?_eq_getElem (l := g) (i := 3 * t) (by omega)
  have e1 := List.getElem?_eq_getElem (l := g) (i := 3 * t + 1) (by omega)
  have e2 := List.getElem?_eq_getElem (l := g) (i := 3 * t + 2) (by omega)
  by_cases p0 : p.alphabet.IsPrimary g[3 * t]
  · by_cases p1 : p.alphabet.IsPrimary g[3 * t + 1]
    · by_cases p2 : p.alphabet.IsPrimary g[3 * t + 2]
      · obtain ⟨d0, h0, q0⟩ := (isPrimary_iff p _).1 p0
        obtain ⟨d1, h1, q1⟩ := (isPrimary_iff p _).1 p1
        obtain ⟨d2, h2, q2⟩ := (isPrimary_iff p _).1 p2
        by_cases hv : d0 * 2304 + d1 * 48 + d2 ≤ 65535
        · exact .inl ⟨_, _, _, e0, e1, e2, d0, d1, d2, h0, h1, h2, q0, q1, q2, hv⟩
        · exact .inr (.inr ⟨d0, d1, d2, h0, h1, h2, q0 ▸ e0, q1 ▸ e1, q2 ▸ e2, by omega⟩)
      · refine .inr (.inl ⟨2, _, by omega, fun j' hj' => ?_, e2, p2⟩)
        obtain rfl | rfl : j' = 0 ∨ j' = 1 := by omega
        · exact ⟨_, e0, p0⟩
        · exact ⟨_, e1, p1⟩
    · refine .inr (.inl ⟨1, _, by omega, fun j' hj' => ?_, e1, p1⟩)
      obtain rfl : j' = 0 := by omega
      exact ⟨_, e0, p0⟩
  · exact .inr (.inl ⟨0, _, by omega, fun j' hj' => absurd hj' (by omega), e0, p0⟩)

/-! Step 3: the loop. -/

/-- Over triplets that all pass, the loop appends the bytes whose text they are. -/
theorem decLoop_pass (turns : Nat) (sc : DecScratch)
    (h : ∀ t, sc.t ≤ t → t < sc.t + turns → TripletPasses p sc.g t) :
    ∃ sc' bytes, decLoop p turns sc = .ok sc' ∧ sc'.w = sc.w ∧ sc'.g = sc.g ∧ sc'.pp = sc.pp ∧
      sc'.t = sc.t + turns ∧ sc'.acc = sc.acc ++ bytes ∧ bytes.length = 2 * turns ∧
      encText p bytes = (sc.g.drop (3 * sc.t)).take (3 * turns) := by
  induction turns generalizing sc with
  | zero => exact ⟨sc, [], rfl, rfl, rfl, rfl, rfl, by simp, rfl, by simp [encText]⟩
  | succ turns ih =>
    obtain ⟨sc1, b0, b1, h1, w1, g1, p1, t1, a1, x1⟩ := decTurn_pass p (h sc.t (by omega) (by omega))
    obtain ⟨sc2, bytes, h2, w2, g2, p2, t2, a2, l2, x2⟩ := ih sc1 (fun t ht ht' => by
      rw [g1]
      exact h t (by omega) (by omega))
    refine ⟨sc2, b0 :: b1 :: bytes, by simp only [decLoop, h1, h2], by rw [w2, w1], by rw [g2, g1],
      by rw [p2, p1], by omega, by rw [a2, a1]; simp, by simp only [List.length_cons]; omega, ?_⟩
    have hcat := encText_append p (xs := [b0, b1]) bytes (by simp)
    rw [List.cons_append, List.cons_append, List.nil_append] at hcat
    rw [hcat, x1, x2, g1, t1, show 3 * (sc.t + 1) = 3 * sc.t + 3 by omega,
      show 3 * (turns + 1) = 3 + 3 * turns by omega, List.take_add, List.drop_drop]

/-- Over triplets that pass until one whose turn stops, the loop stops as that turn does. -/
theorem decLoop_stop (turns : Nat) (sc : DecScratch) (t : Nat) (e : Stop) (ht : sc.t ≤ t)
    (ht' : t < sc.t + turns) (hpass : ∀ t', sc.t ≤ t' → t' < t → TripletPasses p sc.g t')
    (hstop : ∀ sc' : DecScratch, sc'.g = sc.g → sc'.t = t → decTurn p sc' = .error e) :
    decLoop p turns sc = .error e := by
  induction turns generalizing sc with
  | zero => omega
  | succ turns ih =>
    by_cases heq : sc.t = t
    · simp only [decLoop, hstop sc rfl heq]
    · obtain ⟨sc1, b0, b1, h1, -, g1, -, t1, -⟩ := decTurn_pass p (hpass sc.t (by omega) (by omega))
      simp only [decLoop, h1]
      exact ih sc1 (by omega) (by omega)
        (fun t' h h' => by rw [g1]; exact hpass t' (by omega) h')
        (fun sc' hg hs => hstop sc' (hg.trans g1) hs)

/-! Step 4. -/

theorem nibbleOf_Q {n index : Nat} (h : n < 16) : nibbleOf p (p.Q n) index = .ok (BitVec.ofNat 4 n) := by
  unfold nibbleOf
  rw [classify_Q p h]

/-- The padding pair of a byte gives the byte. -/
theorem nibbleOf_bad {c : CodePoint} {index : Nat} (h : ¬ p.alphabet.IsPadding c) :
    nibbleOf p c index = .error (.fail (.invalidPadding c index)) := by
  unfold nibbleOf
  cases hc : classify p c with
  | padding n => exact absurd ((isPadClass_iff p).1 (by simp [isPadClass, hc])) h
  | _ => rfl

theorem padDecode_Q {n0 n1 base : Nat} {acc : List Byte} (h0 : n0 < 16) (h1 : n1 < 16) :
    padDecode p (p.Q n0, p.Q n1) base acc = .ok (acc ++ [BitVec.ofNat 8 (n0 * 16 + n1)]) := by
  unfold padDecode
  rw [nibbleOf_Q p h0, nibbleOf_Q p h1]
  simp only
  congr 3
  apply BitVec.eq_of_toNat_eq
  rw [padByte_toNat]
  simp only [BitVec.toNat_ofNat]
  omega

/-! The whole command. -/

theorem decFront_w (input : List CodePoint) : (decFront p input).w = workingSequence input :=
  wsFilter_eq p input

theorem decFront_g (input : List CodePoint) :
    (decFront p input).g = (padDetect p (workingSequence input)).1 := by
  show (padDetect p (wsFilter p input)).1 = _
  rw [wsFilter_eq]

theorem decFront_pp (input : List CodePoint) :
    (decFront p input).pp = (padDetect p (workingSequence input)).2 := by
  show (padDetect p (wsFilter p input)).2 = _
  rw [wsFilter_eq]

theorem decStages_length {input g : List CodePoint}
    (hg : IsPrimaryGroup p (workingSequence input) g) (h : g.length % 3 ≠ 0) :
    decStages p input = .error (.fail (.invalidLength g.length)) := by
  have : (decFront p input).g = g := by rw [decFront_g, padDetect_group p hg]
  unfold decStages decBack lenCheck
  rw [this, if_pos h]

/-- Where a triplet stops the loop, and all before it pass, the command ends as that turn does. -/
theorem decStages_stop {input g : List CodePoint} {t : Nat} {e : Stop}
    (hg : IsPrimaryGroup p (workingSequence input) g) (h : g.length % 3 = 0) (ht : t < g.length / 3)
    (hpass : ∀ t' < t, TripletPasses p g t')
    (hstop : ∀ sc : DecScratch, sc.g = g → sc.t = t → decTurn p sc = .error e) :
    decStages p input = .error e := by
  have hfg : (decFront p input).g = g := by rw [decFront_g, padDetect_group p hg]
  have hft : (decFront p input).t = 0 := rfl
  have hloop := decLoop_stop p (g.length / 3) (decFront p input) t e (by omega) (by omega)
    (fun t' _ ht' => by rw [hfg]; exact hpass t' ht')
    (fun sc hsg hst => hstop sc (hsg.trans hfg) hst)
  unfold decStages decBack lenCheck
  rw [hfg, if_neg (by omega), hloop]

/-- Where every triplet passes, the command gives the bytes whose text is the working sequence. -/
theorem decStages_pass {input g : List CodePoint}
    (hg : IsPrimaryGroup p (workingSequence input) g) (h : g.length % 3 = 0)
    (hpass : ∀ t < g.length / 3, TripletPasses p g t) :
    ∃ bytes, decStages p input = .ok bytes ∧ encText p bytes = workingSequence input := by
  have hfg : (decFront p input).g = g := by rw [decFront_g, padDetect_group p hg]
  have hft : (decFront p input).t = 0 := rfl
  obtain ⟨sc, bytes, hl, hw, -, hpp, -, hacc, hlen, htext⟩ :=
    decLoop_pass p (g.length / 3) (decFront p input)
      (fun t _ ht => by rw [hfg]; exact hpass t (by omega))
  have hacc0 : (decFront p input).acc = [] := rfl
  rw [hacc0, List.nil_append] at hacc
  rw [hfg, hft, Nat.mul_zero, List.drop_zero, List.take_of_length_le (by omega)] at htext
  have hback : decStages p input = decFinish p sc := by
    unfold decStages decBack lenCheck
    rw [hfg, if_neg (by omega), hl]
  rw [hback]
  unfold decFinish
  rw [hpp, decFront_pp]
  obtain ⟨c0, c1, hweq, h0, h1⟩ | ⟨hweq, hno⟩ := hg
  · obtain ⟨n0, hn0, rfl⟩ := (isPadding_iff p c0).1 h0
    obtain ⟨n1, hn1, rfl⟩ := (isPadding_iff p c1).1 h1
    rw [hweq, padDetect_pair p h0 h1]
    refine ⟨_, padDecode_Q p hn0 hn1, ?_⟩
    rw [encText_append p _ (by rw [hacc, hlen]; omega), hacc, htext]
    congr 1
    simp only [encText, BitVec.toNat_ofNat]
    rw [show (n0 * 16 + n1) % 2 ^ 8 / 16 = n0 by omega,
      show (n0 * 16 + n1) % 2 ^ 8 % 16 = n1 by omega]
  · rw [padDetect_none p hno]
    exact ⟨_, rfl, by rw [hacc, htext, hweq]⟩

theorem exec_decode_admitted {input : List CodePoint} {s : State}
    (h : input.length ≤ s.params.maxDecCps) :
    exec (.decode input) s = s.endDecode (decStages s.params input) := by
  show execDecode input s = _
  rw [execDecode, if_pos ((fits_iff _ _).2 h)]

theorem exec_decode_refused {input : List CodePoint} {s : State}
    (h : s.params.maxDecCps < input.length) :
    exec (.decode input) s = .refused .overCapacity := by
  show execDecode input s = _
  rw [execDecode, if_neg]
  rw [fits_iff]
  omega

/-- A primary group exists for every working sequence. -/
theorem exists_primaryGroup (w : List CodePoint) : ∃ g, IsPrimaryGroup p w g := by
  obtain ⟨front, c0, c1, h, h0, h1, -⟩ | ⟨h, -⟩ := padDetect_cases p w
  · exact ⟨front, .inl ⟨c0, c1, h, h0, h1⟩⟩
  · exact ⟨w, .inr ⟨rfl, h⟩⟩

/-- The first of some triplets that does not pass. -/
theorem exists_first_failing {g : List CodePoint} {n : Nat}
    (h : ¬ ∀ t < n, TripletPasses p g t) :
    ∃ t < n, (∀ t' < t, TripletPasses p g t') ∧ ¬ TripletPasses p g t := by
  induction n with
  | zero => exact absurd (fun t ht => absurd ht (by omega)) h
  | succ n ih =>
    by_cases hn : ∀ t < n, TripletPasses p g t
    · refine ⟨n, by omega, hn, fun hp => h fun t ht => ?_⟩
      obtain ht | rfl : t < n ∨ t = n := by omega
      · exact hn t ht
      · exact hp
    · obtain ⟨t, ht, hb, hf⟩ := ih hn
      exact ⟨t, by omega, hb, hf⟩

/-- The four ways a DECODE's stages can end, each with what the input is (rules R65, R124). -/
theorem decStages_cases {input g : List CodePoint}
    (hg : IsPrimaryGroup p (workingSequence input) g) :
    (g.length % 3 ≠ 0 ∧ decStages p input = .error (.fail (.invalidLength g.length))) ∨
    (g.length % 3 = 0 ∧ (∀ t < g.length / 3, TripletPasses p g t) ∧
      ∃ bytes, decStages p input = .ok bytes ∧ encText p bytes = workingSequence input) ∨
    (g.length % 3 = 0 ∧ ∃ t j c, FirstBadCharacter p g t j c ∧
      decStages p input = .error (.fail (.invalidCharacter c (3 * t + j)))) ∨
    (g.length % 3 = 0 ∧ ∃ t v, FirstOutOfRange p g t v ∧
      decStages p input = .error (.fail (.valueOutOfRange (BitVec.ofNat 17 v) (3 * t)))) := by
  by_cases hl : g.length % 3 = 0
  case neg => exact .inl ⟨hl, decStages_length p hg hl⟩
  by_cases hall : ∀ t < g.length / 3, TripletPasses p g t
  · exact .inr (.inl ⟨hl, hall, decStages_pass p hg hl hall⟩)
  obtain ⟨t, ht, hbefore, hfail⟩ := exists_first_failing p hall
  obtain hp | ⟨j, c, hj, hj', hc, hbad⟩ | ⟨d0, d1, d2, h0, h1, h2, e0, e1, e2, hv⟩ := triplet_cases p ht
  · exact absurd hp hfail
  · refine .inr (.inr (.inl ⟨hl, t, j, c, ⟨ht, hj, hbefore, hj', hc, hbad⟩, ?_⟩))
    refine decStages_stop p hg hl ht hbefore fun sc hsg hst => ?_
    subst hsg hst
    exact decTurn_bad p hj hj' hc hbad
  · refine .inr (.inr (.inr ⟨hl, t, _, ⟨ht, hbefore, d0, d1, d2, h0, h1, h2, e0, e1, e2, rfl, hv⟩, ?_⟩))
    refine decStages_stop p hg hl ht hbefore fun sc hsg hst => ?_
    subst hsg hst
    exact decTurn_range p h0 h1 h2 e0 e1 e2 hv

end Sys2Proof.Machine
end

