-- ==== Sys2Proof/Laws/Text.lean ====
section
/-! SUPPORT. The text of a byte sequence, element by element: which code points stand where, which
class they have, and what its primary group and padding pair are. -/

namespace Sys2Proof.Machine

variable (p : Params)

/-- Every element of the text is an alphabet code point. -/
theorem encText_mem (xs : List Byte) :
    ∀ c ∈ encText p xs, p.alphabet.IsPrimary c ∨ p.alphabet.IsPadding c := by
  induction xs using pairs_induction with
  | nil => simp [encText]
  | tail b =>
    have := b.isLt
    simp only [encText, List.mem_cons, List.not_mem_nil, or_false]
    rintro c (rfl | rfl)
    · exact .inr (isPadding_Q p (by omega))
    · exact .inr (isPadding_Q p (by omega))
  | pair b0 b1 xs ih =>
    have := b0.isLt
    have := b1.isLt
    simp only [encText, List.mem_cons]
    rintro c (rfl | rfl | rfl | h)
    · exact .inl (isPrimary_P p (by omega))
    · exact .inl (isPrimary_P p (by omega))
    · exact .inl (isPrimary_P p (by omega))
    · exact ih c h

/-- With no tail byte every element of the text is Primary. -/
theorem encText_even_primary {xs : List Byte} (h : xs.length % 2 = 0) :
    ∀ c ∈ encText p xs, p.alphabet.IsPrimary c := by
  induction xs using pairs_induction with
  | nil => simp [encText]
  | tail b => simp at h
  | pair b0 b1 xs ih =>
    have := b0.isLt
    have := b1.isLt
    simp only [List.length_cons] at h
    simp only [encText, List.mem_cons]
    rintro c (rfl | rfl | rfl | hc)
    · exact isPrimary_P p (by omega)
    · exact isPrimary_P p (by omega)
    · exact isPrimary_P p (by omega)
    · exact ih (by omega) c hc

/-- The three elements of pair `k`. -/
theorem encText_pair (xs : List Byte) (k : Nat) (b0 b1 : Byte) (h0 : xs[2 * k]? = some b0)
    (h1 : xs[2 * k + 1]? = some b1) :
    (encText p xs)[3 * k]? = some (p.P ((b0.toNat * 256 + b1.toNat) / 48 / 48)) ∧
    (encText p xs)[3 * k + 1]? = some (p.P ((b0.toNat * 256 + b1.toNat) / 48 % 48)) ∧
    (encText p xs)[3 * k + 2]? = some (p.P ((b0.toNat * 256 + b1.toNat) % 48)) := by
  induction xs using pairs_induction generalizing k with
  | nil => simp at h0
  | tail b => simp at h1
  | pair a b xs ih =>
    cases k with
    | zero =>
      simp at h0 h1
      subst h0 h1
      simp [encText]
    | succ k =>
      rw [show 2 * (k + 1) = 2 * k + 1 + 1 by omega] at h0 h1
      simp only [List.getElem?_cons_succ] at h0 h1
      rw [show 3 * (k + 1) = 3 * k + 1 + 1 + 1 by omega]
      simpa only [encText, List.getElem?_cons_succ] using ih k h0 h1

/-- The two elements of the tail byte. -/
theorem encText_tail (xs : List Byte) (b : Byte) (h : xs.length % 2 = 1)
    (hb : xs[xs.length - 1]? = some b) :
    (encText p xs)[3 * (xs.length / 2)]? = some (p.Q (b.toNat / 16)) ∧
    (encText p xs)[3 * (xs.length / 2) + 1]? = some (p.Q (b.toNat % 16)) := by
  induction xs using pairs_induction with
  | nil => simp at h
  | tail a =>
    simp at hb
    subst hb
    simp [encText]
  | pair a c xs ih =>
    simp only [List.length_cons] at h
    have hlast : (a :: c :: xs).length - 1 = (xs.length - 1) + 1 + 1 := by
      simp only [List.length_cons]; omega
    rw [hlast] at hb
    simp only [List.getElem?_cons_succ] at hb
    rw [show 3 * ((a :: c :: xs).length / 2) = 3 * (xs.length / 2) + 1 + 1 + 1 by
      simp only [List.length_cons]; omega]
    simpa only [encText, List.getElem?_cons_succ] using ih (by omega) hb

/-- Every pair's three elements form a triplet that passes. -/
theorem encText_passes {xs : List Byte} {t : Nat} (ht : t < xs.length / 2) :
    TripletPasses p (encText p xs) t := by
  have l0 : 2 * t < xs.length := by omega
  have l1 : 2 * t + 1 < xs.length := by omega
  obtain ⟨h0, h1, h2⟩ := encText_pair p xs t _ _
    (List.getElem?_eq_getElem l0) (List.getElem?_eq_getElem l1)
  have := (xs[2 * t]).isLt
  have := (xs[2 * t + 1]).isLt
  exact ⟨_, _, _, h0, h1, h2, _, _, _, by omega, by omega, by omega, rfl, rfl, rfl, by omega⟩

/-- The primary group of a text is the text of its pairs, and there is a padding pair exactly when
there is a tail byte. -/
theorem encText_group (xs : List Byte) :
    ∃ g pair, encText p xs = g ++ pair ∧ IsPrimaryGroup p (encText p xs) g ∧
      g.length = 3 * (xs.length / 2) ∧ (∀ t < g.length / 3, TripletPasses p g t) ∧
      (EndsInPair p (encText p xs) ↔ xs.length % 2 = 1) := by
  obtain h | h : xs.length % 2 = 0 ∨ xs.length % 2 = 1 := by omega
  · have hl := encText_length p xs
    have hne : ¬ EndsInPair p (encText p xs) := by
      rintro ⟨front, c0, c1, he, -, h1⟩
      exact not_isPadding_of_isPrimary p (encText_even_primary p h c1 (by rw [he]; simp)) h1
    refine ⟨encText p xs, [], by simp, .inr ⟨rfl, hne⟩, by omega,
      fun t ht => encText_passes p (by omega), ?_⟩
    simp [hne, h]
  · have hlt : xs.length - 1 < xs.length := by omega
    have hsplit : xs = xs.take (xs.length - 1) ++ [xs[xs.length - 1]] := by
      conv_lhs => rw [← List.take_append_drop (xs.length - 1) xs, List.drop_eq_getElem_cons hlt]
      simp [show xs.length - 1 + 1 = xs.length by omega]
    have hlen : (xs.take (xs.length - 1)).length = xs.length - 1 := by simp
    have he := encText_append p (xs := xs.take (xs.length - 1)) [xs[xs.length - 1]] (by omega)
    rw [← hsplit] at he
    have hb := (xs[xs.length - 1]).isLt
    have hl := encText_length p (xs.take (xs.length - 1))
    have q0 := isPadding_Q p (n := (xs[xs.length - 1]).toNat / 16) (by omega)
    have q1 := isPadding_Q p (n := (xs[xs.length - 1]).toNat % 16) (by omega)
    refine ⟨_, _, he, .inl ⟨_, _, he, q0, q1⟩, by omega,
      fun t ht => encText_passes p (by omega), ?_⟩
    simp only [h, iff_true]
    exact ⟨_, _, _, he, q0, q1⟩

end Sys2Proof.Machine
end

