-- ==== Sys2Proof/Laws/Exec.lean ====
section
/-! SUPPORT. What `exec` and `step` can answer, said once: an admitted command completes with a record
that depends on the command and the parameters alone, and every other command is refused. -/

namespace Sys2Proof.Machine

/-- The record of an admitted command (rule R47). The fault case is never met: `decStages_no_fault`. -/
def resultOf (p : Params) : Instr → ResultRecord
  | .encode input => okRecord 0 (.codePoints (encText p input))
  | .decode input =>
    match decStages p input with
    | .ok bytes => okRecord 1 (.bytes bytes)
    | .error (.fail e) => failRecord e
    | .error (.fault _) => ResultRecord.reset

theorem decStages_no_fault (p : Params) (input : List CodePoint) (f : Fault) :
    decStages p input ≠ .error (.fault f) := by
  obtain ⟨g, hg⟩ := exists_primaryGroup p (workingSequence input)
  obtain ⟨-, h⟩ | ⟨-, -, _, h, -⟩ | ⟨-, _, _, _, -, h⟩ | ⟨-, _, _, -, h⟩ := decStages_cases p hg <;>
    simp [h]

theorem exec_admitted {i : Instr} {s : State} (h : i.wf s.params = true) :
    exec i s = .next (s.after (resultOf s.params i)) := by
  cases i with
  | encode input => exact exec_encode_admitted (of_decide_eq_true h)
  | decode input =>
    rw [exec_decode_admitted (of_decide_eq_true h), resultOf]
    cases hd : decStages s.params input with
    | ok bytes => rfl
    | error e =>
      cases e with
      | fail e => rfl
      | fault f => exact absurd hd (decStages_no_fault _ _ _)

theorem exec_refused {i : Instr} {s : State} (h : i.wf s.params = false) :
    exec i s = .refused .overCapacity := by
  cases i with
  | encode input => exact exec_encode_refused (by simpa [Instr.wf] using h)
  | decode input => exact exec_decode_refused (by simpa [Instr.wf] using h)

/-- Every outcome of a command: it is admitted and completes, or it is refused (rule R23). -/
theorem exec_cases (i : Instr) (s : State) :
    (i.wf s.params = true ∧ exec i s = .next (s.after (resultOf s.params i))) ∨
    (i.wf s.params = false ∧ exec i s = .refused .overCapacity) := by
  cases h : i.wf s.params
  · exact .inr ⟨rfl, exec_refused h⟩
  · exact .inl ⟨rfl, exec_admitted h⟩

theorem exec_next {i : Instr} {s t : State} (h : exec i s = .next t) :
    i.wf s.params = true ∧ t = s.after (resultOf s.params i) := by
  obtain ⟨hw, he⟩ | ⟨-, he⟩ := exec_cases i s
  · rw [he] at h
    cases h
    exact ⟨hw, rfl⟩
  · rw [he] at h
    cases h

/-- Every outcome of a step (rules R22, R23, R50). -/
theorem step_cases (s : State) :
    (s.pending = [] ∧ step s = .next s) ∨
    (∃ c rest i, s.pending = c :: rest ∧ decodeCommand c = .ok i ∧
      step s = exec i { s with pending := rest }) ∨
    (∃ c rest e, s.pending = c :: rest ∧ decodeCommand c = .error e ∧
      step s = .refused .malformedCommand) := by
  unfold step
  split
  · next h => exact .inl ⟨h, rfl⟩
  · next c rest h =>
    split
    · next i hi => exact .inr (.inl ⟨c, rest, i, h, hi, rfl⟩)
    · next hi => exact .inr (.inr ⟨c, rest, _, h, hi, rfl⟩)

/-- A step that gives a next state has done nothing or completed a command. -/
theorem step_next {s t : State} (h : step s = .next t) :
    (s.pending = [] ∧ t = s) ∨
    (∃ c rest i, s.pending = c :: rest ∧ decodeCommand c = .ok i ∧ i.wf s.params = true ∧
      t = State.after { s with pending := rest } (resultOf s.params i)) := by
  obtain ⟨hp, hs⟩ | ⟨c, rest, i, hp, hd, hs⟩ | ⟨c, rest, e, hp, hd, hs⟩ := step_cases s
  · rw [hs] at h
    cases h
    exact .inl ⟨hp, rfl⟩
  · rw [hs] at h
    obtain ⟨hw, rfl⟩ := exec_next h
    exact .inr ⟨c, rest, i, hp, hd, hw, rfl⟩
  · rw [hs] at h
    cases h

/-- A command that is admitted is not refused, so it cannot be withdrawn (rules R23, R132). -/
theorem withdraw_admitted {s : State} {c : Command} {rest : List Command} {i : Instr}
    (hp : s.pending = c :: rest) (hd : decodeCommand c = .ok i) (hw : i.wf s.params = true) :
    s.withdraw = s := by
  refine withdraw_next (t := State.after { s with pending := rest } (resultOf s.params i)) ?_
  rw [step, hp]
  simp only [hd]
  exact exec_admitted hw

/-- The record of a DECODE, by what its input is. -/
theorem resultOf_decode_cases (p : Params) {input g : List CodePoint}
    (hg : IsPrimaryGroup p (workingSequence input) g) :
    (g.length % 3 ≠ 0 ∧ resultOf p (.decode input) = failRecord (.invalidLength g.length)) ∨
    (g.length % 3 = 0 ∧ (∀ t < g.length / 3, TripletPasses p g t) ∧
      ∃ bytes, resultOf p (.decode input) = okRecord 1 (.bytes bytes) ∧
        encText p bytes = workingSequence input) ∨
    (g.length % 3 = 0 ∧ ∃ t j c, FirstBadCharacter p g t j c ∧
      resultOf p (.decode input) = failRecord (.invalidCharacter c (3 * t + j))) ∨
    (g.length % 3 = 0 ∧ ∃ t v, FirstOutOfRange p g t v ∧
      resultOf p (.decode input) = failRecord (.valueOutOfRange (BitVec.ofNat 17 v) (3 * t))) := by
  obtain ⟨hl, h⟩ | ⟨hl, hall, bytes, h, ht⟩ | ⟨hl, t, j, c, hb, h⟩ | ⟨hl, t, v, hb, h⟩ :=
    decStages_cases p hg
  · exact .inl ⟨hl, by rw [resultOf, h]⟩
  · exact .inr (.inl ⟨hl, hall, bytes, by rw [resultOf, h], ht⟩)
  · exact .inr (.inr (.inl ⟨hl, t, j, c, hb, by rw [resultOf, h]⟩))
  · exact .inr (.inr (.inr ⟨hl, t, v, hb, by rw [resultOf, h]⟩))

/-- A primary group is no longer than the working sequence, and a prefix of it. -/
theorem primaryGroup_is_initial {p : Params} {w g : List CodePoint} (h : IsPrimaryGroup p w g) :
    g.length ≤ w.length ∧ ∀ i < g.length, w[i]? = g[i]? := by
  obtain ⟨c0, c1, rfl, -, -⟩ | ⟨rfl, -⟩ := h
  · exact ⟨by simp, fun i hi => List.getElem?_append_left hi⟩
  · exact ⟨Nat.le_refl _, fun i _ => rfl⟩

/-! The records a command can write are legal (rules R26 to R29). -/

theorem lt_two_pow_idxW (m : Nat) : m < 2 ^ Config.idxW m := by
  unfold Config.idxW
  split
  · omega
  · exact Nat.lt_log2_self

theorem reset_legal (p : Params) : LegalRecord p ResultRecord.reset := by
  constructor <;> simp [ResultRecord.reset]

theorem okRecord_legal (p : Params) {out : Elems} {dir : Bit}
    (h0 : dir = 0 → ∃ cps, out = .codePoints cps ∧
      ∀ c ∈ cps, p.alphabet.IsPrimary c ∨ p.alphabet.IsPadding c)
    (h1 : dir = 1 → ∃ bytes, out = .bytes bytes) : LegalRecord p (okRecord dir out) := by
  constructor <;> simp_all [okRecord, Kind.code]

/-- A decode error whose detail is in the ranges of rule R26 writes a legal record. -/
theorem failRecord_legal (p : Params) {e : DecodeFail}
    (h : match e with
      | .invalidCharacter _ i => i < p.maxDecCps
      | .invalidLength n => n ≤ p.maxDecCps
      | .valueOutOfRange v i => i < p.maxDecCps ∧ 65536 ≤ v.toNat ∧ v.toNat ≤ 110591
      | .invalidPadding _ _ => False) : LegalRecord p (failRecord e) := by
  have hm := lt_two_pow_idxW p.maxDecCps
  cases e with
  | invalidPadding cp i => exact h.elim
  | _ =>
    simp only at h
    constructor <;>
      simp [failRecord, DecodeFail.kind, Kind.code, DecodeFail.errCp, DecodeFail.errIndex,
        DecodeFail.errCount, DecodeFail.errValue]
    all_goals omega

/-- What an admitted command writes: a legal record, valid, with the command's direction. -/
theorem resultOf_legal {p : Params} {i : Instr} (hw : i.wf p = true) :
    LegalRecord p (resultOf p i) ∧ (resultOf p i).valid = 1 ∧ (resultOf p i).dir = dirOf i := by
  cases i with
  | encode input =>
    exact ⟨okRecord_legal p (fun _ => ⟨_, rfl, encText_mem p input⟩)
      (fun h => absurd h (by decide)), rfl, rfl⟩
  | decode input =>
    obtain ⟨g, hg⟩ := exists_primaryGroup p (workingSequence input)
    have hgw := (primaryGroup_is_initial hg).1
    have hwi := workingSequence_length_le input
    have hadm : input.length ≤ p.maxDecCps := of_decide_eq_true hw
    obtain ⟨-, h⟩ | ⟨-, -, bytes, h, -⟩ | ⟨-, t, j, c, hb, h⟩ | ⟨-, t, v, hb, h⟩ :=
      resultOf_decode_cases p hg <;> rw [h]
    · exact ⟨failRecord_legal p (by simp only; omega), rfl, rfl⟩
    · exact ⟨okRecord_legal p (fun h => absurd h (by decide)) (fun _ => ⟨_, rfl⟩), rfl, rfl⟩
    · obtain ⟨ht, hj, -⟩ := hb
      exact ⟨failRecord_legal p (by simp only; omega), rfl, rfl⟩
    · obtain ⟨ht, -, d0, d1, d2, h0, h1, h2, -, -, -, rfl, hv⟩ := hb
      refine ⟨failRecord_legal p ?_, rfl, rfl⟩
      simp only [BitVec.toNat_ofNat]
      omega

end Sys2Proof.Machine
end

