-- ==== Sys2Proof/Laws/PerInstr.lean ====
section
/-! SUPPORT. The statements made per instruction: the family `RoundTrip`, that the encoder's command
is well formed and decodes back to the instruction (rules R22, R60). -/

/-- The encoded command has the element type its direction selects, and decodes back. -/
def Sys2Proof.Laws.RoundTrip.Statement (i : Sys2Proof.Instr) : Prop :=
  (Sys2Proof.encodeCommand i).wf = true ∧
  Sys2Proof.decodeCommand (Sys2Proof.encodeCommand i) = .ok i

theorem Sys2Proof.Laws.RoundTrip.encode (input : List Sys2Proof.Byte) :
    Sys2Proof.Laws.RoundTrip.Statement (.encode input) := ⟨rfl, rfl⟩

theorem Sys2Proof.Laws.RoundTrip.decode (input : List Sys2Proof.CodePoint) :
    Sys2Proof.Laws.RoundTrip.Statement (.decode input) := ⟨rfl, rfl⟩
end

