-- ==== Sys2Proof/Tests/Slice0.lean ====
section
/-! SUPPORT. The model's own tests: an ill-formed term for each check of WellFormed and Config, the
command words written out from rule R60, one or two vectors of `95_test_vectors.md` an instruction
under its illustrative parameter set `TEST_PARAMS`, and for every statement with hypotheses a concrete
state and operands that meet them. -/

namespace Sys2Proof.Tests

open Sys2Proof Sys2Proof.Machine

/-- `TEST_PARAMS` of `95_test_vectors.md`, with small capacities. -/
def tp : Params :=
  { alphabet := ⟨0x0100#21, 0x0180#21, 0x0200#21⟩, maxEncBytes := 8, maxDecCps := 12 }

/-- The reset state of a block with those parameters. -/
def s0 : State := State.resetOf tp

/-- The record that a command leaves from that state, if it completes. -/
def recordOf (i : Instr) : Option ResultRecord :=
  match exec i s0 with
  | .next t => some t.res
  | .fault _ => none
  | .refused _ => none

/-- As many bytes as the capacity admits. -/
def eightBytes : List Byte := [0x12, 0x34, 0x00, 0x01, 0xFF, 0xFF, 0x09, 0x00]

/-- As many code points as the capacity admits: `P(0) P(0) P(1)` with whitespace. -/
def twelveCps : List CodePoint :=
  [0x100, 0x20, 0x0A, 0x100, 0x0D, 0x09, 0x101, 0x20, 0x20, 0x20, 0x20, 0x20]

/-! Ill-formed terms, each refused by its check. -/

/-- The condition for which a parameter set is refused. -/
def refusedFor (a : Alphabet) : Option ParamError :=
  match Params.make a 8 12 with
  | .ok _ => none
  | .error e => some e

theorem test_params_accepted : refusedFor ⟨0x0100, 0x0180, 0x0200⟩ = none := by decide
theorem test_refuses_run_past_last_code_point :
    refusedFor ⟨0x10FFD2, 0x0180, 0x0200⟩ = some .w1 := by decide
theorem test_refuses_extra_in_run : refusedFor ⟨0x0100, 0x012E, 0x0200⟩ = some .w2 := by decide
theorem test_refuses_extra_past_last_code_point :
    refusedFor ⟨0x0100, 0x110000, 0x0200⟩ = some .w2 := by decide
theorem test_refuses_padding_on_run : refusedFor ⟨0x0100, 0x0180, 0x012E⟩ = some .w3 := by decide
theorem test_refuses_padding_on_extra : refusedFor ⟨0x0100, 0x020F, 0x0200⟩ = some .w3 := by decide
theorem test_refuses_padding_past_last_code_point :
    refusedFor ⟨0x0100, 0x0180, 0x10FFF1⟩ = some .w3 := by decide
theorem test_refuses_whitespace_in_run : refusedFor ⟨0x0020, 0x0180, 0x0200⟩ = some .w4 := by decide
theorem test_refuses_whitespace_in_padding :
    refusedFor ⟨0x0100, 0x0180, 0x000D⟩ = some .w4 := by decide
theorem test_refuses_surrogate_in_run : refusedFor ⟨0xDFFF, 0x0180, 0x0200⟩ = some .w5 := by decide
theorem test_refuses_surrogate_extra : refusedFor ⟨0x0100, 0xD800, 0x0200⟩ = some .w5 := by decide
theorem test_refuses_surrogate_in_padding :
    refusedFor ⟨0x0100, 0x0180, 0xD7F1⟩ = some .w5 := by decide

theorem test_refuses_code_points_for_encode :
    Command.wf ⟨0b0#1, .codePoints [0x100]⟩ = false := by decide
theorem test_refuses_bytes_for_decode : Command.wf ⟨0b1#1, .bytes [0x12]⟩ = false := by decide
theorem test_encode_over_capacity_is_ill_formed :
    (Instr.encode (0x00 :: eightBytes)).wf tp = false := by decide
theorem test_decode_over_capacity_is_ill_formed :
    (Instr.decode (0x20 :: twelveCps)).wf tp = false := by decide

/-! Decoding, from the bit patterns of rule R60: `DIR = 0` is ENCODE, `DIR = 1` is DECODE. -/

theorem test_word_of_encode : decodeTableWord 8 0b00000000 = some (.encode []) := by decide
theorem test_word_of_decode : decodeTableWord 8 0b00000001 = some (.decode []) := by decide
theorem test_command_of_encode :
    decodeCommand ⟨0b0#1, .bytes [0x12, 0x34]⟩ = .ok (.encode [0x12, 0x34]) := rfl
theorem test_command_of_decode :
    decodeCommand ⟨0b1#1, .codePoints [0x20A, 0x20B]⟩ = .ok (.decode [0x20A, 0x20B]) := rfl

/-- The word fetched is the instruction that the step runs, from the hardware's own reset state, whose
parameters no proof can see. -/
theorem test_fetched_encode_runs :
    step (State.reset.withFetchWord 8 0) = exec (.encode []) State.reset := rfl
theorem test_fetched_decode_runs :
    step (State.reset.withFetchWord 8 1) = exec (.decode []) State.reset := rfl

/-! Vectors of `95_test_vectors.md`. -/

/-- Section 2.2: 2303 has the digits (0, 47, 47), and digit 47 is the extra point. -/
theorem test_encode_extra_point : recordOf (.encode [0x08, 0xFF]) =
    some (okRecord 0 (.codePoints [0x0100, 0x0180, 0x0180])) := by decide

/-- Section 2.2: two pairs and a tail byte. -/
theorem test_encode_pairs_and_tail : recordOf (.encode [0x01, 0x02, 0x03, 0x04, 0x05]) =
    some (okRecord 0 (.codePoints
      [0x0100, 0x0105, 0x0112, 0x0100, 0x0110, 0x0104, 0x0200, 0x0205])) := by decide

/-- Section 3, program 1, command 2: whitespace inside the text, and a padding pair. -/
theorem test_decode_whitespace_and_pair :
    recordOf (.decode [0x100, 0x100, 0x101, 0x00A, 0x200, 0x202]) =
    some (okRecord 1 (.bytes [0x00, 0x01, 0x02])) := by decide

/-- Section 2.4: triplet 0 passes, and triplet 1 fails on its character before its value. -/
theorem test_decode_character_before_range :
    (recordOf (.decode [0x100, 0x100, 0x100, 0x058, 0x180, 0x180])).map
      (fun r => (r.kind, r.errCp, r.errIndex, r.out)) =
    some (1, 0x058, 3, .bytes []) := by decide

/-- Section 2.1: the class of each code point of the table. -/
theorem test_classify_table :
    [0x20, 0x09, 0x0A, 0x0D, 0x0B, 0x0C, 0x200, 0x20F, 0x210, 0x100, 0x12E, 0x180, 0x0FF, 0x12F,
      0x1FFFFF].map (classify tp) =
    [.whitespace, .whitespace, .whitespace, .whitespace, .invalid, .invalid, .padding 0, .padding 15,
      .invalid, .primary 0, .primary 46, .primary 47, .invalid, .invalid, .invalid] := by decide

/-- Rule R70: the textual form of program 2, command 3. -/
theorem test_text_form :
    elemValues tp [.P 28, .SP, .P 21, .CR, .P 15] = .ok [0x11C, 0x020, 0x115, 0x00D, 0x10F] := rfl

/-! Witnesses: a state and operands that meet the hypotheses of each statement. -/

theorem witness_DecodeEncodeRoundTrip :
    decodeCommand ⟨1, .codePoints [0x100]⟩ = .ok (.decode [0x100]) ∧
    Command.wf ⟨0, .codePoints []⟩ = false := ⟨rfl, rfl⟩

theorem witness_StepRunsDecodedCommand :
    ((s0.withFetchWord 8 1).pending = ⟨1, .codePoints []⟩ :: [] ∧
      decodeCommand ⟨1, .codePoints []⟩ = .ok (.decode [])) ∧
    s0.pending = [] ∧
    ((s0.issue ⟨0, .codePoints []⟩).pending = ⟨0, .codePoints []⟩ :: [] ∧
      decodeCommand ⟨0, .codePoints []⟩ = .error .elementType) :=
  ⟨⟨rfl, rfl⟩, rfl, rfl, rfl⟩

theorem resetOf_meets_invariant (p : Params) (cs : List Command) :
    MachineInv { State.resetOf p with pending := cs } :=
  ⟨reset_legal p, fun _ hr => absurd hr List.not_mem_nil, rfl, rfl⟩

/-- A state in which an ENCODE is pending. -/
def s1 : State := { s0 with pending := [encodeCommand (.encode eightBytes)] }

theorem witness_StepKeepsInvariant : MachineInv s1 ∧ ∃ t, step s1 = .next t :=
  ⟨resetOf_meets_invariant tp _, _, rfl⟩

theorem witness_EncodeGivesDigitsAndTail :
    (eightBytes.length ≤ s0.params.maxEncBytes ∧ eightBytes[2 * 3]? = some 0x09 ∧
      eightBytes[2 * 3 + 1]? = some 0x00) ∧
    ([0xAB] : List Byte).length ≤ s0.params.maxEncBytes ∧ ([0xAB] : List Byte).length % 2 = 1 ∧
    ([0xAB] : List Byte)[0]? = some 0xAB := by decide

theorem witness_EncodeOutputForm : eightBytes.length ≤ s0.params.maxEncBytes := by decide

theorem witness_EncodeIsInjective :
    ∃ t u, exec (.encode eightBytes) s0 = .next t ∧ exec (.encode eightBytes) s0 = .next u ∧
      t.res.out = u.res.out := ⟨_, _, rfl, rfl, rfl⟩

theorem witness_EncodeRaisesNoError :
    (∃ t, exec (.encode eightBytes) s0 = .next t) ∧ eightBytes.length ≤ s0.params.maxEncBytes ∧
    exec (.encode (0x00 :: eightBytes)) s0 = .refused .overCapacity :=
  ⟨⟨_, rfl⟩, by decide, rfl⟩

theorem witness_RomHoldsRunThenExtra :
    (46#6).toNat ≤ 46 ∧ (47#6).toNat = 47 ∧ 48 ≤ (48#6).toNat := by decide

theorem witness_PaddingRunIsOffset :
    (tp.alphabet.padBase.toNat ≤ (0x200#21).toNat ∧
      (0x200#21).toNat ≤ tp.alphabet.padBase.toNat + 15) ∧
    (tp.alphabet.padBase.toNat ≤ (0x20F#21).toNat ∧
      (0x20F#21).toNat ≤ tp.alphabet.padBase.toNat + 15) := by decide

theorem witness_ReverseIndexUndoesRom :
    tp.alphabet.InRun 0x12E ∧ ¬ tp.alphabet.IsPrimary 0x12F ∧ romRead tp 47 = .ok 0x180 :=
  ⟨by decide, by decide, rfl⟩

theorem witness_ClassifyGivesClass :
    (0x0D#21 ∈ Config.whitespaceSet) ∧ (15 < 16 ∧ 0x20F#21 = tp.Q 15) ∧
    (47 < 48 ∧ 0x180#21 = tp.P 47) ∧
    (0x12F#21 ∉ Config.whitespaceSet ∧ ¬ tp.alphabet.IsPadding 0x12F ∧
      ¬ tp.alphabet.IsPrimary 0x12F) := by decide

theorem witness_AlphabetsAreDisjoint :
    (46 < 48 ∧ tp.P 46 = tp.P 46) ∧ (15 < 16 ∧ tp.Q 15 = tp.Q 15) ∧
    0x20#21 ∈ Config.whitespaceSet := by decide

theorem witness_ClassCodeTable : classify tp 0x180 = .primary 47 := by decide

theorem witness_ParametersAcceptedIffWellFormed :
    tp.alphabet.Wf ∧ ¬ Alphabet.Wf ⟨0x0100, 0x0180, 0x012E⟩ := ⟨tp.ok, by decide⟩

theorem witness_IndexWidthIsLeast : 12 < 2 ^ 4 ∧ Config.idxW 12 = 4 := by decide

theorem witness_FieldAssemblyIsExact :
    ((47#6).toNat ≤ 47) ∧ ((65535#17).toNat ≤ 65535) := by decide

theorem witness_AdmittedCompletesElseRefused :
    eightBytes.length ≤ s0.params.maxEncBytes ∧ twelveCps.length ≤ s0.params.maxDecCps ∧
    (Instr.encode (0x00 :: eightBytes)).wf s0.params = false ∧
    (Instr.decode (0x20 :: twelveCps)).wf s0.params = false := by decide

/-- A state in which a command that is refused is pending before one that is not. -/
def s2 : State :=
  { s0 with pending := [encodeCommand (.encode (0x00 :: eightBytes)), encodeCommand (.decode [])] }

theorem witness_BlockGoesOnAfterRefusal :
    s2.pending = encodeCommand (.encode (0x00 :: eightBytes)) :: encodeCommand (.decode []) :: [] ∧
    step s2 = .refused .overCapacity ∧
    decodeCommand (encodeCommand (.decode [])) = .ok (.decode []) := ⟨rfl, rfl, rfl⟩

theorem witness_CompletionWritesOnlyTheResult :
    (∃ t, exec (.decode twelveCps) s0 = .next t) ∧ step s0 = .next s0 ∧ s0.pending = [] :=
  ⟨⟨_, rfl⟩, rfl, rfl⟩

/-- Rule R132: a command that is admitted cannot be withdrawn; one that is refused can. -/
theorem witness_AdmittedCommandIsNotCancelled :
    (s1.pending = encodeCommand (.encode eightBytes) :: [] ∧
      decodeCommand (encodeCommand (.encode eightBytes)) = .ok (.encode eightBytes) ∧
      (Instr.encode eightBytes).wf s1.params = true ∧ s1.withdraw = s1) ∧
    s0.pending = [] ∧
    (step s2 = .refused .overCapacity ∧
      s2.withdraw.pending = [encodeCommand (.decode [])]) :=
  ⟨⟨rfl, rfl, by decide, rfl⟩, rfl, rfl, rfl⟩

theorem witness_ResultDependsOnCommandAndTable :
    s0.params = s1.params ∧ (∃ t, exec (.encode eightBytes) s0 = .next t) ∧
    exec (.encode (0x00 :: eightBytes)) s0 = .refused .overCapacity := ⟨rfl, ⟨_, rfl⟩, rfl⟩

/-- A state in which one command has completed and the next is pending. -/
def s3 : State :=
  { State.after s0 (okRecord 1 (.bytes [])) with pending := [encodeCommand (.encode [])] }

theorem witness_ValidMarksAResult :
    (∃ t, exec (.encode []) s0 = .next t) ∧ (s0.pending = [] ∧ step s0 = .next s0) ∧
    (MachineInv s3 ∧ (∃ t, step s3 = .next t) ∧ s3.res.valid = 1) ∧
    (MachineInv s0 ∧ s0.res.valid = 0) := by
  have hl : LegalRecord tp (okRecord 1 (.bytes [])) :=
    okRecord_legal tp (fun h => absurd h (by decide)) (fun _ => ⟨_, rfl⟩)
  refine ⟨⟨_, rfl⟩, ⟨rfl, rfl⟩, ⟨⟨hl, ?_, rfl, rfl⟩, ⟨_, rfl⟩, rfl⟩, resetOf_meets_invariant tp _, rfl⟩
  intro r hr
  obtain rfl : r = okRecord 1 (.bytes []) := by simpa [s3, s0] using hr
  exact ⟨hl, rfl⟩

theorem witness_FailureHasNoOutput :
    (∃ t, exec (.decode [0x203]) s0 = .next t ∧ t.res.kind ≠ 0) ∧
    (∃ t, exec (.decode []) s0 = .next t ∧ t.res.kind = 0) :=
  ⟨⟨_, rfl, by decide⟩, ⟨_, rfl, rfl⟩⟩

theorem witness_UnnamedDetailIsZero :
    (∃ t, exec (.decode []) s0 = .next t ∧ t.res.kind = 0) ∧
    (∃ t, exec (.decode [0x12F, 0x100, 0x100]) s0 = .next t ∧ t.res.kind = 1) ∧
    (∃ t, exec (.decode [0x203]) s0 = .next t ∧ t.res.kind = 2) ∧
    (∃ t, exec (.decode [0x11C, 0x115, 0x110]) s0 = .next t ∧ t.res.kind = 3) :=
  ⟨⟨_, rfl, rfl⟩, ⟨_, rfl, by decide⟩, ⟨_, rfl, by decide⟩, ⟨_, rfl, by decide⟩⟩

theorem witness_StatusCodeTable :
    s0.res.kind = Kind.ok.code ∧
    5 ≤ (State.after s0 { ResultRecord.reset with kind := 5 }).res.kind.toNat := by decide

theorem witness_PaddingPairDetection :
    (tp.alphabet.IsPadding 0x200 ∧ tp.alphabet.IsPadding 0x20F) ∧ ¬ EndsInPair tp [0x20F] := by
  refine ⟨by decide, ?_⟩
  rintro ⟨front, c0, c1, h, -⟩
  have := congrArg List.length h
  simp at this

/-- A text that ends in no padding pair, because its last element is not Padding. -/
theorem no_pair {w : List CodePoint} {c : CodePoint} (h : w.getLast? = some c)
    (hc : ¬ tp.alphabet.IsPadding c) : ¬ EndsInPair tp w := by
  rintro ⟨front, c0, c1, rfl, -, h1⟩
  simp only [List.getLast?_append, List.getLast?_cons_cons, List.getLast?_singleton,
    Option.some_or, Option.some.injEq] at h
  exact hc (h ▸ h1)

theorem witness_LengthIsCheckedFirst :
    ([0x201, 0x202, 0x203] : List CodePoint).length ≤ s0.params.maxDecCps ∧
    IsPrimaryGroup tp (workingSequence [0x201, 0x202, 0x203]) [0x201] ∧
    ([0x201] : List CodePoint).length % 3 ≠ 0 :=
  ⟨by decide, .inl ⟨0x202, 0x203, by decide, by decide, by decide⟩, by decide⟩

/-- `P(0) P(0) P(0)` passes. -/
theorem zeros_pass (rest : List CodePoint) :
    TripletPasses tp (0x100 :: 0x100 :: 0x100 :: rest) 0 :=
  ⟨0x100, 0x100, 0x100, rfl, rfl, rfl, 0, 0, 0, by decide, by decide, by decide, by decide,
    by decide, by decide, by decide⟩

/-- The first triplet passes; in the second, index 5 is the first element that is not Primary. -/
theorem witness_FirstBadCharacterIsReported :
    let w : List CodePoint := [0x100, 0x100, 0x100, 0x100, 0x100, 0x12F]
    w.length ≤ s0.params.maxDecCps ∧ IsPrimaryGroup tp (workingSequence w) w ∧ w.length % 3 = 0 ∧
    FirstBadCharacter tp w 1 2 0x12F := by
  refine ⟨by decide, .inr ⟨by decide, no_pair (c := 0x12F) (by decide) (by decide)⟩, by decide,
    by decide, by decide, fun t ht => ?_, fun j hj => ⟨0x100, ?_, by decide⟩, rfl, by decide⟩
  · obtain rfl : t = 0 := by omega
    exact zeros_pass _
  · obtain rfl | rfl : j = 0 ∨ j = 1 := by omega
    · rfl
    · rfl

/-- `(28, 21, 16)` is the smallest value out of range. -/
theorem witness_FirstOutOfRangeIsReported :
    let w : List CodePoint := [0x100, 0x100, 0x100, 0x11C, 0x115, 0x110]
    w.length ≤ s0.params.maxDecCps ∧ IsPrimaryGroup tp (workingSequence w) w ∧ w.length % 3 = 0 ∧
    FirstOutOfRange tp w 1 65536 := by
  refine ⟨by decide, .inr ⟨by decide, no_pair (c := 0x110) (by decide) (by decide)⟩, by decide,
    by decide, fun t ht => ?_, 28, 21, 16, by decide, by decide, by decide, by decide, by decide,
    by decide, by decide, by decide⟩
  obtain rfl : t = 0 := by omega
  exact zeros_pass _

/-- A triplet and a padding pair. -/
theorem witness_DecodeSuccessOutput :
    let g : List CodePoint := [0x100, 0x100, 0x100]
    let pair : List CodePoint := [0x20F, 0x200]
    (g ++ pair).length ≤ s0.params.maxDecCps ∧ workingSequence (g ++ pair) = g ++ pair ∧
    IsPrimaryGroup tp (workingSequence (g ++ pair)) g ∧ g.length % 3 = 0 ∧
    (∀ t < g.length / 3, TripletPasses tp g t) ∧
    (0 < g.length / 3 ∧ g[3 * 0]? = some (tp.P 0) ∧ g[3 * 0 + 1]? = some (tp.P 0) ∧
      g[3 * 0 + 2]? = some (tp.P 0)) ∧
    pair = [tp.Q 15, tp.Q 0] := by
  refine ⟨by decide, by decide, .inl ⟨0x20F, 0x200, by decide, by decide, by decide⟩, by decide,
    fun t ht => ?_, by decide, by decide⟩
  obtain rfl : t = 0 := by simp at ht; omega
  exact zeros_pass _

theorem witness_ErrorPriority :
    ([0x20F] : List CodePoint).length ≤ s0.params.maxDecCps ∧
    IsPrimaryGroup tp (workingSequence [0x20F]) [0x20F] :=
  ⟨by decide, .inr ⟨by decide, witness_PaddingPairDetection.2⟩⟩

theorem witness_InvalidPaddingIsNeverRaised :
    (padDetect tp [0x20F, 0x200]).2 = some (0x20F, 0x200) ∧
    (∃ t, exec (.decode [0x20F, 0x200]) s0 = .next t) ∧
    ¬ tp.alphabet.IsPadding 0x210 ∧
    (tp.alphabet.IsPadding 0x20F ∧ ¬ tp.alphabet.IsPadding 0x1FF) ∧
    (decFront tp [0x20F, 0x200]).pp = some (0x20F, 0x200) :=
  ⟨by decide, ⟨_, rfl⟩, by decide, by decide, by decide⟩

theorem witness_AcceptedTextsAreEncodings : twelveCps.length ≤ s0.params.maxDecCps := by decide

/-- Eight bytes encode to the twelve code points that the capacity admits. -/
theorem witness_DecodeAfterEncodeGivesInput :
    s1.params = s0.params ∧ eightBytes.length ≤ s0.params.maxEncBytes ∧
    (encText s0.params eightBytes).length ≤ s0.params.maxDecCps := by decide

theorem witness_WhitespaceChangesNothing :
    InsertsWhitespace [0x100] [0x0D, 0x100, 0x20] ∧
    ([0x0D, 0x100, 0x20] : List CodePoint).length ≤ s0.params.maxDecCps :=
  ⟨.insert _ (by decide) _ _ (.keep _ _ _ (.insert _ (by decide) _ _ .nil)), by decide⟩

theorem witness_AcceptedTextIsCanonical :
    s1.params = s0.params ∧ (∃ t, exec (.decode twelveCps) s0 = .next t ∧ t.res.kind = 0 ∧
      t.res.out = .bytes [0x00, 0x01]) ∧
    ([0x00, 0x01] : List Byte).length ≤ s0.params.maxEncBytes :=
  ⟨rfl, ⟨_, rfl, rfl, by decide⟩, by decide⟩

theorem witness_AlphabetTableIsConstant :
    (∃ t, step s1 = .next t) ∧ (∃ t, tick s1 = .next t) := ⟨⟨_, rfl⟩, ⟨_, rfl⟩⟩

theorem witness_CommandsCompleteInOrder :
    let cmds : List Instr := [.encode eightBytes, .decode twelveCps]
    (State.load cmds s0).pending = cmds.map encodeCommand ∧
    ∀ i ∈ cmds, i.wf (State.load cmds s0).params = true := ⟨rfl, by decide⟩

/-- Two block instances with a command each. -/
def twoBlocks : System := ⟨[s1, s3]⟩

theorem witness_BlocksAreIndependent :
    0 ≠ 1 ∧ (∃ a, twoBlocks.stepAt 0 = .next a) ∧ (∃ b, twoBlocks.stepAt 1 = .next b) ∧
    twoBlocks.SharesTable tp := by
  refine ⟨by decide, ⟨_, rfl⟩, ⟨_, rfl⟩, fun s hs => ?_⟩
  obtain rfl | rfl : s = s1 ∨ s = s3 := by simpa [twoBlocks] using hs
  · rfl
  · rfl

theorem witness_SequencerReachesTheStep :
    (s1.hidden = none ∧ ∃ t, step s1 = .next t) ∧
    (s2.hidden = none ∧ step s2 = .refused .overCapacity) := ⟨⟨rfl, _, rfl⟩, rfl, rfl⟩

theorem witness_TextFormElements :
    (47#6).toNat < 48 ∧ classify tp 0x0D = .whitespace := by decide

theorem witness_EmptyInputSucceeds :
    ([0x20, 0x0A, 0x0D, 0x09] : List CodePoint).length ≤ s0.params.maxDecCps ∧
    ∀ c ∈ ([0x20, 0x0A, 0x0D, 0x09] : List CodePoint), c ∈ Config.whitespaceSet :=
  ⟨by decide, by simp [Config.whitespaceSet]⟩

end Sys2Proof.Tests
end

/-! PROOFS. The family `00_scope`: the parameters (rules R5, R85), what a step runs (rules R22,
R50), and the hidden sequencer, whose turns end in the state that the atomic step gives (rules R8, R21,
R31). -/

namespace Sys2Proof.Machine

/-! The parameters. -/

/-- Settles O19: the five tests of `Params.make` are W1 to W5, so a well-formed alphabet passes them
all, and one that passes them all is well formed. -/
theorem parametersAcceptedIffWellFormed : Obligations.ParametersAcceptedIffWellFormed := by
  refine ⟨fun a m n hwf => ⟨⟨a, m, n, hwf⟩, ?_, rfl, rfl, rfl⟩, fun a m n hwf => ?_⟩
  · obtain ⟨h1, h2, h3, h4, h5⟩ := hwf
    rw [Params.make, dif_pos h1, dif_pos h2, dif_pos h3, dif_pos h4, dif_pos h5]
  · unfold Params.make
    split_ifs with h1 h2 h3 h4 h5
    · exact absurd ⟨h1, h2, h3, h4, h5⟩ hwf
    all_goals exact ⟨_, rfl⟩

/-- A width whose values exceed the capacity is at least `IDX_W` (decision D14). -/
theorem idxW_le_of_lt_two_pow {m w : Nat} (h : m < 2 ^ w) : Config.idxW m ≤ w := by
  unfold Config.idxW
  split
  · exact Nat.zero_le w
  · next hm => exact (Nat.log2_lt hm).2 h

/-- Settles O20: `IDX_W` is wide enough, and no narrower width is. -/
theorem indexWidthIsLeast : Obligations.IndexWidthIsLeast :=
  fun m => ⟨lt_two_pow_idxW m, fun _ => idxW_le_of_lt_two_pow⟩

/-! What a step runs. -/

section Dispatch
variable {s : State} {c : Command} {rest : List Command}

theorem step_of_no_pending (hp : s.pending = []) : step s = .next s := by
  rw [step, hp]

theorem step_of_decoded {i : Instr} (hp : s.pending = c :: rest) (hd : decodeCommand c = .ok i) :
    step s = exec i { s with pending := rest } := by
  rw [step, hp]
  simp only [hd]

theorem step_of_malformed {e : DecodeError} (hp : s.pending = c :: rest)
    (hd : decodeCommand c = .error e) : step s = .refused .malformedCommand := by
  rw [step, hp]
  simp only [hd]

theorem tick_of_no_pending (hs : s.hidden = none) (hp : s.pending = []) : tick s = .next s := by
  rw [tick, hs, hp]

theorem tick_of_decoded {i : Instr} (hs : s.hidden = none) (hp : s.pending = c :: rest)
    (hd : decodeCommand c = .ok i) : tick s = startCommand i { s with pending := rest } := by
  rw [tick, hs, hp]
  simp only [hd]

theorem tick_of_malformed {e : DecodeError} (hs : s.hidden = none) (hp : s.pending = c :: rest)
    (hd : decodeCommand c = .error e) : tick s = .refused .malformedCommand := by
  rw [tick, hs, hp]
  simp only [hd]

end Dispatch

/-- Settles O3: one equation of `step` for each of the three forms of the queue. -/
theorem stepRunsDecodedCommand : Obligations.StepRunsDecodedCommand :=
  ⟨fun _ _ _ _ => step_of_decoded, fun _ => step_of_no_pending,
    fun _ _ _ _ => step_of_malformed⟩

/-! The sequencer starts exactly the commands that are admitted (rule R23). -/

/-- What the sequencer holds of a command that it has just started (rules R21, R24, R31). -/
def InFlight.start : Instr → InFlight
  | .encode input => .encoding input EncScratch.fresh
  | .decode input => .decoding input .filter DecScratch.fresh

theorem startCommand_admitted {i : Instr} {s : State} (h : i.wf s.params = true) :
    startCommand i s = .next { s with hidden := some (.start i) } := by
  cases i <;> exact if_pos ((fits_iff _ _).2 (of_decide_eq_true h))

theorem startCommand_refused {i : Instr} {s : State} (h : i.wf s.params = false) :
    startCommand i s = .refused .overCapacity := by
  cases i <;> exact if_neg (mt (fits_iff _ _).1 (of_decide_eq_false h))

/-! A command under way: as many turns as its stages need give what the stages give. -/

/-- A completion discards the hidden state, so what it gives does not depend on it (rule R31). -/
theorem endEncode_discards_hidden (s : State) (f : Option InFlight)
    (r : Except Fault (List CodePoint)) :
    State.endEncode r { s with hidden := f } = s.endEncode r := by
  cases r <;> rfl

theorem endDecode_discards_hidden (s : State) (f : Option InFlight)
    (r : Except Stop (List Byte)) : State.endDecode r { s with hidden := f } = s.endDecode r := by
  obtain (_ | _) | _ := r <;> rfl

theorem ticks_succ_of_next {s u : State} (h : tick s = .next u) (n : Nat) :
    ticks (n + 1) s = ticks n u := by
  simp only [ticks, h]

@[simp] theorem ticks_one (s : State) : ticks 1 s = tick s := by
  unfold ticks
  cases tick s <;> rfl

/-- From cursor `k`, one turn for each pair left and one for the completion end the ENCODE (rule
R90). -/
theorem ticks_encoding (input : List Byte) (turns : Nat) (sc : EncScratch) (s : State)
    (hk : sc.k + turns = input.length / 2) :
    ticks (turns + 1) { s with hidden := some (.encoding input sc) } =
      s.endEncode ((encLoop s.params input turns sc).bind (encFinish s.params input)) := by
  induction turns generalizing sc with
  | zero =>
    rw [ticks_one]
    exact (if_neg (by omega)).trans (endEncode_discards_hidden _ _ _)
  | succ turns ih =>
    obtain ⟨sc', hturn, hk', -⟩ := encTurn_eq s.params (sc := sc)
      (List.getElem?_eq_getElem (l := input) (by omega))
      (List.getElem?_eq_getElem (l := input) (by omega))
    have htick : tick { s with hidden := some (.encoding input sc) } =
        .next { s with hidden := some (.encoding input sc') } :=
      (if_pos (by omega)).trans (by simp only [hturn])
    rw [ticks_succ_of_next htick, ih sc' (by omega)]
    simp only [encLoop, hturn]

/-- A turn of DECODE's loop that passes moves the cursor on and keeps the primary group. -/
theorem decTurn_ok {p : Params} {sc sc' : DecScratch} (h : decTurn p sc = .ok sc') :
    sc'.g = sc.g ∧ sc'.t = sc.t + 1 := by
  unfold decTurn at h
  split at h
  · cases h
  · simp only at h
    split at h
    · cases h
    · cases h
      exact ⟨rfl, rfl⟩

/-- From cursor `t`, the turns for the triplets left end the DECODE, at the first triplet that fails
or after the last one (rules R100, R124). -/
theorem exists_ticks_triplets (input : List CodePoint) (turns : Nat) (sc : DecScratch) (s : State)
    (ht : sc.t + turns = sc.g.length / 3) :
    ∃ n, ticks n { s with hidden := some (.decoding input .triplets sc) } =
      s.endDecode ((decLoop s.params turns sc).bind (decFinish s.params)) := by
  induction turns generalizing sc with
  | zero =>
    refine ⟨1, ?_⟩
    rw [ticks_one]
    exact (if_neg (by omega)).trans (endDecode_discards_hidden _ _ _)
  | succ turns ih =>
    cases hturn : decTurn s.params sc with
    | ok sc' =>
      have htick : tick { s with hidden := some (.decoding input .triplets sc) } =
          .next { s with hidden := some (.decoding input .triplets sc') } :=
        (if_pos (by omega)).trans (by simp only [hturn])
      obtain ⟨hg, ht'⟩ := decTurn_ok hturn
      obtain ⟨n, hn⟩ := ih sc' (by rw [hg]; omega)
      exact ⟨n + 1, by rw [ticks_succ_of_next htick, hn]; simp only [decLoop, hturn]⟩
    | error e =>
      have htick : tick { s with hidden := some (.decoding input .triplets sc) } =
          s.endDecode (.error e) :=
        (if_pos (by omega)).trans (by simp only [hturn, endDecode_discards_hidden])
      exact ⟨1, by rw [ticks_one, htick]; simp only [decLoop, hturn, Except.bind]⟩

/-- From the phase before `LEN_CHECK`, the turns end the DECODE as the stages after Steps 1 and 2 do
(rule R100). -/
theorem exists_ticks_length (input : List CodePoint) (sc : DecScratch) (s : State) (ht : sc.t = 0) :
    ∃ n, ticks n { s with hidden := some (.decoding input .length sc) } =
      s.endDecode (decBack s.params sc) := by
  cases hlen : lenCheck sc.g with
  | ok _ =>
    have htick : tick { s with hidden := some (.decoding input .length sc) } =
        .next { s with hidden := some (.decoding input .triplets sc) } := by
      simp only [tick, tickDecode, hlen]
    obtain ⟨n, hn⟩ := exists_ticks_triplets input (sc.g.length / 3) sc s (by omega)
    refine ⟨n + 1, ?_⟩
    rw [ticks_succ_of_next htick, hn, decBack, hlen]
    cases decLoop s.params (sc.g.length / 3) sc <;> rfl
  | error e =>
    have htick : tick { s with hidden := some (.decoding input .length sc) } =
        s.endDecode (.error e) := by
      simp only [tick, tickDecode, hlen, endDecode_discards_hidden]
    exact ⟨1, by rw [ticks_one, htick, decBack, hlen]⟩

/-- The turns of a started command end in what its meaning gives (rules R8, R21, R31). -/
theorem exists_ticks_exec {i : Instr} {s : State} (h : i.wf s.params = true) :
    ∃ n, ticks n { s with hidden := some (.start i) } = exec i s := by
  cases i with
  | encode input =>
    refine ⟨_, (ticks_encoding input _ EncScratch.fresh s (Nat.zero_add _)).trans ?_⟩
    rw [exec_encode_admitted (of_decide_eq_true h), ← endEncode_ok, ← encStages_eq, encStages]
    cases encLoop s.params input (input.length / 2) EncScratch.fresh <;> rfl
  | decode input =>
    obtain ⟨n, hn⟩ := exists_ticks_length input (decFront s.params input) s rfl
    refine ⟨n + 1, (ticks_succ_of_next rfl n).trans ?_⟩
    rw [exec_decode_admitted (of_decide_eq_true h)]
    exact hn

/-- Settles O46: the sequencer refuses a command where `exec` does, and where it starts one, its
turns end in what `exec` gives; that is proved by induction on the turns of each loop. -/
theorem sequencerReachesTheStep : Obligations.SequencerReachesTheStep := by
  refine ⟨fun s t hs h => ?_, fun s r hs => ?_⟩
  · obtain ⟨-, rfl⟩ | ⟨c, rest, i, hp, hd, hw, -⟩ := step_next h
    · exact ⟨0, rfl⟩
    · have htick := (tick_of_decoded hs hp hd).trans (startCommand_admitted hw)
      obtain ⟨n, hn⟩ := exists_ticks_exec (i := i) (s := { s with pending := rest }) hw
      exact ⟨n + 1, by rw [ticks_succ_of_next htick, hn, ← step_of_decoded hp hd, h]⟩
  · obtain ⟨hp, hstep⟩ | ⟨c, rest, i, hp, hd, hstep⟩ | ⟨c, rest, e, hp, hd, hstep⟩ := step_cases s
    · rw [hstep, tick_of_no_pending hs hp]
    · rw [hstep, tick_of_decoded hs hp hd]
      obtain ⟨hw, hexec⟩ | ⟨hw, hexec⟩ := exec_cases i { s with pending := rest }
      · rw [hexec, startCommand_admitted hw]
        simp only [reduceCtorEq]
      · rw [hexec, startCommand_refused hw]
    · rw [hstep, tick_of_malformed hs hp hd]

end Sys2Proof.Machine

/-! PROOFS. The family `10_state`: the command word (rules R22, R60), reset (rules R140, R141), the
result record and the invariant of the machine (rules R25 to R29, R125), admission and withdrawal
(rules R23, R132), and the constant Alphabet Table (rule R52). -/

namespace Sys2Proof.Machine

/-! The command word. -/

@[simp] theorem decodeCommand_encodeCommand (i : Instr) :
    decodeCommand (encodeCommand i) = .ok i := by
  cases i with
  | encode input => exact (Laws.RoundTrip.encode input).2
  | decode input => exact (Laws.RoundTrip.decode input).2

@[simp] theorem encodeCommand_wf (i : Instr) : (encodeCommand i).wf = true := by
  cases i with
  | encode input => exact (Laws.RoundTrip.encode input).1
  | decode input => exact (Laws.RoundTrip.decode input).1

theorem bit_cases (b : Bit) : b = 0 ∨ b = 1 := by
  revert b
  decide

/-- Every command is the encoding of an instruction, or its input has the wrong element type and the
decoder rejects it (rules R22, R60). -/
theorem command_cases (c : Command) :
    (∃ i, c = encodeCommand i) ∨ (c.wf = false ∧ decodeCommand c = .error .elementType) := by
  obtain ⟨dir, bytes | cps⟩ := c <;> obtain rfl | rfl := bit_cases dir
  · exact .inl ⟨.encode bytes, rfl⟩
  · exact .inr ⟨rfl, rfl⟩
  · exact .inr ⟨rfl, rfl⟩
  · exact .inl ⟨.decode cps, rfl⟩

theorem eq_decode_of_dirOf {i : Instr} (h : dirOf i = 1) : ∃ input, i = .decode input := by
  cases i with
  | encode input => exact absurd (show (0 : Bit) = 1 from h) (by decide)
  | decode input => exact ⟨input, rfl⟩

/-- Settles O1: each value of `DIR` is the word of an instruction's encoding, and that encoding
decodes. -/
theorem commandWordSelectsInstruction : Obligations.CommandWordSelectsInstruction := by
  have hencode (xs) := decodeCommand_encodeCommand (.encode xs)
  have hdecode (xs) := decodeCommand_encodeCommand (.decode xs)
  refine ⟨hencode, hdecode, fun dir => ?_, rfl, rfl⟩
  obtain rfl | rfl := bit_cases dir
  · exact ⟨_, _, hencode []⟩
  · exact ⟨_, _, hdecode []⟩

/-- Settles O2: a command is the encoding of an instruction, which decodes to it, or it is
rejected. -/
theorem decodeEncodeRoundTrip : Obligations.DecodeEncodeRoundTrip := by
  refine ⟨decodeCommand_encodeCommand, fun c i h => ?_, fun c => ?_⟩
  · obtain ⟨j, rfl⟩ | ⟨-, hd⟩ := command_cases c
    · rw [decodeCommand_encodeCommand] at h
      rw [Except.ok.inj h]
    · rw [hd] at h
      cases h
  · obtain ⟨j, rfl⟩ | ⟨hwf, hd⟩ := command_cases c
    · simp
    · simp [hwf, hd]

/-! The result that the collaborator reads. -/

section Result
variable {s : State}

theorem lastResult_of_valid (h : s.res.valid = 1) : s.lastResult = some s.res := if_pos h

theorem lastResult_of_not_valid (h : s.res.valid = 0) : s.lastResult = none :=
  if_neg (by rw [h]; decide)

theorem output_of_ok (hv : s.res.valid = 1) (hk : s.res.kind = 0) : s.output = some s.res.out :=
  if_pos ⟨hv, hk⟩

theorem output_of_failure (hk : s.res.kind ≠ 0) : s.output = none := if_neg fun h => hk h.2

end Result

/-- A completion writes a legal record, valid, with the command's direction (rules R25 to R29). -/
theorem exec_next_legal {i : Instr} {s t : State} (h : exec i s = .next t) :
    LegalRecord s.params t.res ∧ t.res.valid = 1 ∧ t.res.dir = dirOf i := by
  obtain ⟨hw, rfl⟩ := exec_next h
  exact resultOf_legal hw

/-! The invariant. -/

theorem resetOf_inv (p : Params) : MachineInv (State.resetOf p) :=
  ⟨reset_legal p, fun _ hr => absurd hr List.not_mem_nil, rfl, rfl⟩

/-- The invariant says nothing of the commands to come. -/
theorem machineInv_pending {s : State} (hs : MachineInv s) (cs : List Command) :
    MachineInv { s with pending := cs } :=
  ⟨hs.res_legal, hs.results_legal, hs.res_is_last, hs.nothing_hidden⟩

/-- Completing a command with a legal, valid record keeps the invariant. -/
theorem machineInv_after {s : State} {r : ResultRecord} (hs : MachineInv s)
    (hr : LegalRecord s.params r) (hv : r.valid = 1) : MachineInv (s.after r) where
  res_legal := hr
  results_legal r' hr' := by
    obtain hold | hnew := List.mem_append.1 hr'
    · exact hs.results_legal r' hold
    · obtain rfl := List.mem_singleton.1 hnew
      exact ⟨hr, hv⟩
  res_is_last := by simp
  nothing_hidden := rfl

/-- Settles O7: a step does nothing, or completes an admitted command, whose record is legal. -/
theorem stepKeepsInvariant : Obligations.StepKeepsInvariant := by
  intro s t hs h
  obtain ⟨-, rfl⟩ | ⟨c, rest, i, -, -, hw, rfl⟩ := step_next h
  · exact hs
  · obtain ⟨hlegal, hvalid, -⟩ := resultOf_legal hw
    exact machineInv_after (machineInv_pending hs rest) hlegal hvalid

/-- Settles O6: the reset record is legal, and there are no results and no hidden state. -/
theorem resetMeetsInvariant : Obligations.ResetMeetsInvariant :=
  ⟨resetOf_inv, resetOf_inv Config.params⟩

/-- Settles O5: a reset gives the state after reset of the block's own parameters. -/
theorem resetClearsResultRecord : Obligations.ResetClearsResultRecord := by
  refine ⟨fun s => ?_, rfl⟩
  simp [resetNow_eq, ResultRecord.reset]

/-! What a completion writes. -/

/-- Settles O24: a completion gives the state after a record that depends on the command and the
parameters alone. -/
theorem completionWritesOnlyTheResult : Obligations.CompletionWritesOnlyTheResult := by
  refine ⟨fun i s t h => ?_, fun i s t old h => ?_, fun s t h hp => ?_,
    fun s c => issue_res c s, withdraw_res⟩
  · obtain ⟨-, hvalid, hdir⟩ := exec_next_legal h
    obtain ⟨-, rfl⟩ := exec_next h
    exact ⟨rfl, hvalid, hdir⟩
  · obtain ⟨hw, rfl⟩ := exec_next h
    exact exec_admitted hw
  · rw [step_of_no_pending hp] at h
    cases h
    rfl

/-- Settles O26: a completion sets VALID, and no step writes VALID otherwise. -/
theorem validMarksAResult : Obligations.ValidMarksAResult := by
  refine ⟨fun s => ⟨rfl, lastResult_of_not_valid rfl⟩, fun i s t h => ?_, fun s t hp h => ?_,
    fun s t _ h hv => ?_, fun s hs hv => ?_⟩
  · obtain ⟨-, hvalid, -⟩ := exec_next_legal h
    exact ⟨hvalid, lastResult_of_valid hvalid⟩
  · rw [step_of_no_pending hp] at h
    cases h
    rfl
  · obtain ⟨-, rfl⟩ | ⟨c, rest, i, -, -, hw, rfl⟩ := step_next h
    · exact hv
    · obtain ⟨-, hvalid, -⟩ := resultOf_legal hw
      exact hvalid
  · exact ⟨hs.res_legal.invalid_is_reset hv, lastResult_of_not_valid hv⟩

/-- Settles O27: a legal record of another kind than OK has DIR 1, which is DECODE's, and no
output. -/
theorem failureHasNoOutput : Obligations.FailureHasNoOutput := by
  intro i s t h
  obtain ⟨hlegal, hvalid, hdir⟩ := exec_next_legal h
  refine ⟨fun hk => ?_, output_of_ok hvalid⟩
  obtain ⟨hd, hout⟩ := hlegal.failure_is_empty hk
  exact ⟨eq_decode_of_dirOf (hdir.symm.trans hd), hd, hout, output_of_failure hk⟩

/-- Settles O28: it is part of what makes the record of a completion legal. -/
theorem unnamedDetailIsZero : Obligations.UnnamedDetailIsZero := by
  intro i s t h
  obtain ⟨hlegal, -, -⟩ := exec_next_legal h
  refine ⟨hlegal.ok_detail, fun hk => ?_, fun hk => ?_, fun hk => ?_⟩
  · obtain ⟨-, hcount, hvalue⟩ := hlegal.character_detail hk
    exact ⟨hcount, hvalue⟩
  · obtain ⟨hcp, hindex, -, hvalue⟩ := hlegal.length_detail hk
    exact ⟨hcp, hindex, hvalue⟩
  · obtain ⟨hcp, -, hcount, -⟩ := hlegal.range_detail hk
    exact ⟨hcp, hcount⟩

/-! `InvalidPadding`. -/

section Padding
variable {p : Params} {c0 c1 : CodePoint} (base : Nat) (acc : List Byte)

/-- Two Padding code points decode to a byte (rule R108). -/
theorem padDecode_of_padding (h0 : p.alphabet.IsPadding c0) (h1 : p.alphabet.IsPadding c1) :
    ∃ b, padDecode p (c0, c1) base acc = .ok (acc ++ [b]) := by
  obtain ⟨n0, hn0, rfl⟩ := (isPadding_iff p c0).1 h0
  obtain ⟨n1, hn1, rfl⟩ := (isPadding_iff p c1).1 h1
  exact ⟨_, padDecode_Q p hn0 hn1⟩

theorem padDecode_bad_first (h0 : ¬ p.alphabet.IsPadding c0) :
    padDecode p (c0, c1) base acc = .error (.fail (.invalidPadding c0 base)) := by
  unfold padDecode
  rw [nibbleOf_bad p h0]

theorem padDecode_bad_second (h0 : p.alphabet.IsPadding c0) (h1 : ¬ p.alphabet.IsPadding c1) :
    padDecode p (c0, c1) base acc = .error (.fail (.invalidPadding c1 (base + 1))) := by
  obtain ⟨n0, hn0, rfl⟩ := (isPadding_iff p c0).1 h0
  unfold padDecode
  rw [nibbleOf_Q p hn0, nibbleOf_bad p h1]

end Padding

/-- A pair that was detected consists of Padding code points (rule R102). -/
theorem padDetect_isPadding {p : Params} {w : List CodePoint} {pp : CodePoint × CodePoint}
    (h : (padDetect p w).2 = some pp) :
    p.alphabet.IsPadding pp.1 ∧ p.alphabet.IsPadding pp.2 := by
  obtain ⟨front, c0, c1, -, h0, h1, hd⟩ | ⟨-, hd⟩ := padDetect_cases p w
  · rw [hd] at h
    cases h
    exact ⟨h0, h1⟩
  · rw [hd] at h
    cases h

/-- Settles O37: PAD_DETECT passes on only Padding code points, which PAD_DECODE decodes, and a
legal record does not hold kind 4. -/
theorem invalidPaddingIsNeverRaised : Obligations.InvalidPaddingIsNeverRaised := by
  refine ⟨fun p w pp base acc e h => ?_, fun i s t h => ?_, fun p c0 c1 => padDecode_bad_first,
    fun p c0 c1 => padDecode_bad_second, fun p sc pp h => ?_, fun s c index => rfl⟩
  · obtain ⟨h0, h1⟩ := padDetect_isPadding h
    obtain ⟨b, hb⟩ := padDecode_of_padding base acc h0 h1
    rw [hb]
    exact nofun
  · obtain ⟨hlegal, -, -⟩ := exec_next_legal h
    obtain hk | hk | hk | hk := hlegal.kind_legal <;> rw [hk] <;> decide
  · rw [decFinish, h]

/-! Admission and withdrawal. -/

/-- Settles O22: an input within the capacity makes a well-formed instruction, which completes; any
other is refused. -/
theorem admittedCompletesElseRefused : Obligations.AdmittedCompletesElseRefused := by
  have hcompletes (i : Instr) (s : State) (hw : i.wf s.params = true) :
      ∃ r, exec i s = .next (s.after r) ∧ r.valid = 1 ∧ r.dir = dirOf i := by
    obtain ⟨-, hvalid, hdir⟩ := resultOf_legal hw
    exact ⟨_, exec_admitted hw, hvalid, hdir⟩
  exact ⟨fun s input h => hcompletes (.encode input) s (decide_eq_true h),
    fun s input h => hcompletes (.decode input) s (decide_eq_true h),
    fun s i => exec_refused, fun p => ⟨by simp [Instr.wf], by simp [Instr.wf]⟩⟩

/-- Settles O49: a withdrawal follows what the step would answer, and issuing only appends. -/
theorem admittedCommandIsNotCancelled : Obligations.AdmittedCommandIsNotCancelled :=
  ⟨fun _ _ _ _ => withdraw_admitted, fun _ hp => withdraw_next (step_of_no_pending hp),
    fun _ _ => withdraw_refused, fun _ _ => rfl, fun _ _ => rfl⟩

/-- Settles O23: the withdrawal of a refused command drops it alone, so the one after it is next. -/
theorem blockGoesOnAfterRefusal : Obligations.BlockGoesOnAfterRefusal := by
  intro s c c' rest i r hp hs hd
  have hwithdraw : s.withdraw = { s with pending := c' :: rest } := by
    rw [withdraw_refused hs, hp, List.tail_cons]
  refine ⟨withdraw_res s, withdraw_results s, withdraw_params s, ?_⟩
  rw [hwithdraw, step_of_decoded rfl hd]

/-! The Alphabet Table. -/

theorem step_params {s t : State} (h : step s = .next t) : t.params = s.params := by
  obtain ⟨-, rfl⟩ | ⟨c, rest, i, -, -, -, rfl⟩ := step_next h
  all_goals rfl

theorem endEncode_params {r : Except Fault (List CodePoint)} {s t : State}
    (h : s.endEncode r = .next t) : t.params = s.params := by
  obtain f | acc := r <;> cases h
  rfl

theorem endDecode_params {r : Except Stop (List Byte)} {s t : State}
    (h : s.endDecode r = .next t) : t.params = s.params := by
  obtain (e | f) | acc := r <;> cases h <;> rfl

theorem startCommand_params {i : Instr} {s t : State} (h : startCommand i s = .next t) :
    t.params = s.params := by
  cases hw : i.wf s.params
  · rw [startCommand_refused hw] at h
    cases h
  · rw [startCommand_admitted hw] at h
    cases h
    rfl

theorem tickEncode_params {input : List Byte} {sc : EncScratch} {s t : State}
    (h : tickEncode input sc s = .next t) : t.params = s.params := by
  unfold tickEncode at h
  split at h
  · split at h <;> cases h
    rfl
  · exact endEncode_params h

theorem tickDecode_params {input : List CodePoint} {phase : DecPhase} {sc : DecScratch}
    {s t : State} (h : tickDecode input phase sc s = .next t) : t.params = s.params := by
  cases phase with
  | filter =>
    cases h
    rfl
  | length =>
    simp only [tickDecode] at h
    split at h
    · cases h
      rfl
    · exact endDecode_params h
  | triplets =>
    simp only [tickDecode] at h
    split at h
    · split at h
      · cases h
        rfl
      · exact endDecode_params h
    · exact endDecode_params h

/-- A turn of the sequencer keeps the parameters: of a command under way, or of the start of the
next. -/
theorem tick_params {s t : State} (h : tick s = .next t) : t.params = s.params := by
  unfold tick at h
  split at h
  · exact tickEncode_params h
  · exact tickDecode_params h
  · split at h
    · cases h
      rfl
    · split at h
      · exact (startCommand_params h).trans rfl
      · cases h

/-- Settles O43: one frame lemma for each operation on the state. -/
theorem alphabetTableIsConstant : Obligations.AlphabetTableIsConstant :=
  ⟨fun _ _ => step_params, fun _ _ => tick_params, fun s c => issue_params c s,
    fun s is => load_params s is, fun s => ⟨withdraw_params s, rfl⟩⟩

end Sys2Proof.Machine

/-! PROOFS. The family `20_memory`: the ROM, the Padding run and the Reverse Index (rules R40 to R42),
the injectivity of ENCODE (rules R91, R93), what a command's result depends on (rule R47), commands in
order (rule R50), and several instances over one table (rules R51, R131). -/

namespace Sys2Proof.Machine

/-! ENCODE is injective. -/

section EncText
variable (p : Params)

/-- The number of bytes can be read off the length of the text: `3k` is `2k` bytes, `3k + 2` is
`2k + 1`. -/
theorem length_eq_of_encText_eq {xs ys : List Byte} (h : encText p xs = encText p ys) :
    xs.length = ys.length := by
  have hlen := congrArg List.length h
  rw [encText_length, encText_length] at hlen
  omega

theorem encText_tail_injective {a b : Byte} (h : encText p [a] = encText p [b]) : a = b := by
  have ha := a.isLt
  have hb := b.isLt
  simp only [encText, List.cons.injEq, and_true] at h
  obtain ⟨hhigh, hlow⟩ := h
  have hhigh := Q_injective p (by omega) (by omega) hhigh
  have hlow := Q_injective p (by omega) (by omega) hlow
  exact BitVec.eq_of_toNat_eq (by omega)

/-- The three digits of a pair give its value back, and the value its two bytes (rule R91). -/
theorem encText_pair_injective {a0 a1 b0 b1 : Byte} {xs ys : List Byte}
    (h : encText p (a0 :: a1 :: xs) = encText p (b0 :: b1 :: ys)) :
    a0 = b0 ∧ a1 = b1 ∧ encText p xs = encText p ys := by
  have := a0.isLt
  have := a1.isLt
  have := b0.isLt
  have := b1.isLt
  simp only [encText, List.cons.injEq] at h
  obtain ⟨h0, h1, h2, hrest⟩ := h
  have h0 := P_injective p (by omega) (by omega) h0
  have h1 := P_injective p (by omega) (by omega) h1
  have h2 := P_injective p (by omega) (by omega) h2
  have hvalue : a0.toNat * 256 + a1.toNat = b0.toNat * 256 + b1.toNat := by omega
  exact ⟨BitVec.eq_of_toNat_eq (by omega), BitVec.eq_of_toNat_eq (by omega), hrest⟩

theorem encText_injective {xs ys : List Byte} (h : encText p xs = encText p ys) : xs = ys := by
  have hlen := length_eq_of_encText_eq p h
  induction xs using pairs_induction generalizing ys with
  | nil => exact (List.length_eq_zero_iff.1 hlen.symm).symm
  | tail a =>
    obtain ⟨b, rfl⟩ := List.length_eq_one_iff.1 hlen.symm
    rw [encText_tail_injective p h]
  | pair a0 a1 xs ih =>
    match ys, hlen with
    | b0 :: b1 :: ys, _ =>
      obtain ⟨rfl, rfl, hrest⟩ := encText_pair_injective p h
      rw [ih hrest (length_eq_of_encText_eq p hrest)]

end EncText

/-- Settles O11: a completed ENCODE outputs the text of its input, and the text determines the bytes,
by induction on their pairs. -/
theorem encodeIsInjective : Obligations.EncodeIsInjective := by
  intro s a b t u ha hb hout
  obtain ⟨-, rfl⟩ := exec_next ha
  obtain ⟨-, rfl⟩ := exec_next hb
  exact encText_injective s.params (Elems.codePoints.inj hout)

/-! Commands in order. -/

/-- A step whose next command is admitted completes it, with the record it leaves from any state
(rules R25, R47). -/
theorem step_of_admitted {s : State} {i : Instr} {rest : List Command}
    (hp : s.pending = encodeCommand i :: rest) (hw : i.wf s.params = true) :
    step s = .next (State.after { s with pending := rest } (resultOf s.params i)) := by
  rw [step_of_decoded hp (decodeCommand_encodeCommand i)]
  exact exec_admitted hw

theorem steps_succ_of_next {s u : State} (h : step s = .next u) (n : Nat) :
    steps (n + 1) s = steps n u := by
  simp only [steps, h]

/-- As many steps as admitted commands are pending run them all, one record a command (rule R50). -/
theorem exists_steps_of_admitted (cmds : List Instr) (s : State)
    (hp : s.pending = cmds.map encodeCommand) (hw : ∀ i ∈ cmds, i.wf s.params = true) :
    ∃ t, steps cmds.length s = .next t ∧ t.pending = [] ∧ t.params = s.params ∧
      t.results = s.results ++ cmds.map (resultOf s.params) ∧
      t.res = (cmds.map (resultOf s.params)).getLast?.getD s.res := by
  induction cmds generalizing s with
  | nil => exact ⟨s, rfl, hp, rfl, by simp, rfl⟩
  | cons i cmds ih =>
    obtain ⟨hi, hcmds⟩ := List.forall_mem_cons.1 hw
    have hstep := step_of_admitted hp hi
    obtain ⟨t, hsteps, hpending, hparams, hresults, hres⟩ :=
      ih (State.after { s with pending := cmds.map encodeCommand } (resultOf s.params i)) rfl hcmds
    refine ⟨t, (steps_succ_of_next hstep _).trans hsteps, hpending, hparams, ?_, ?_⟩
    · simpa using hresults
    · simpa [List.getLast?_cons] using hres

/-- Settles O44: the records are those of the commands in order, by induction on the commands. -/
theorem commandsCompleteInOrder : Obligations.CommandsCompleteInOrder := by
  intro cmds s hp hw
  obtain ⟨t, hsteps, hpending, hparams, hresults, hres⟩ := exists_steps_of_admitted cmds s hp hw
  refine ⟨t, cmds.map (resultOf s.params), hsteps, hpending, hparams, hresults, hres, by simp,
    fun k i r hi hr => ?_⟩
  rw [List.getElem?_map, hi] at hr
  obtain rfl := Option.some.inj hr
  exact ⟨_, exec_admitted (s := State.resetOf s.params) (hw i (List.mem_of_getElem? hi)), rfl⟩

/-! The Alphabet Table. -/

/-- Settles O13: the ROM holds `P(d)` at the legal digits, and ENCODE, which forms no other, gives a
text. -/
theorem romHoldsRunThenExtra : Obligations.RomHoldsRunThenExtra := by
  refine ⟨fun p d h => ⟨_, romRead_eq_P p (by omega), P_run_toNat p h⟩, fun p d h => ?_,
    fun p d => romRead_fault p, fun p input => ?_⟩
  · rw [romRead_eq_P p (by omega), h, P_extra]
  · rw [encStages_eq]
    exact nofun

/-- Settles O14: a code point of the run is `Q(n)`, whose offset from `PAD_BASE` is `n`. -/
theorem paddingRunIsOffset : Obligations.PaddingRunIsOffset := by
  refine ⟨fun p n => Q_toNat p n.isLt, fun p c hlow hhigh => ?_⟩
  obtain ⟨n, hn, rfl⟩ := (isPadding_iff p c).1 ⟨hlow, hhigh⟩
  refine ⟨_, classify_Q p hn, ?_⟩
  rw [Q_toNat p hn, BitVec.toNat_ofNat]
  omega

/-- The Reverse Index and the ROM are inverse to each other (rules R40, R42). -/
theorem revLookup_eq_some_iff_romRead (p : Params) {c : CodePoint} {d : Digit} :
    revLookup p c = some d ↔ romRead p d = .ok c :=
  (revLookup_eq_some p).trans (romRead_eq_ok p).symm

theorem revLookup_of_inRun {p : Params} {c : CodePoint} (h : p.alphabet.InRun c) :
    revLookup p c = some (BitVec.ofNat 6 (c.toNat - p.alphabet.primaryBase.toNat)) := if_pos h

/-- Settles O15: REV and ROM have the same graph. -/
theorem reverseIndexUndoesRom : Obligations.ReverseIndexUndoesRom := by
  refine ⟨fun p c h => ⟨_, revLookup_of_inRun h, ?_⟩, fun p => revLookup_P p (d := 47) (by decide),
    fun p c => revLookup_eq_none p, fun p d c => (revLookup_eq_some_iff_romRead p).2, fun p c => ?_⟩
  · obtain ⟨hlow, hhigh⟩ := h
    rw [BitVec.toNat_ofNat]
    omega
  · simp only [Option.ne_none_iff_exists', revLookup_eq_some_iff_romRead]

/-! What a command can answer. -/

/-- Settles O25: whether a command is admitted, and the record it leaves, are functions of the command
and the parameters. -/
theorem resultDependsOnCommandAndTable : Obligations.ResultDependsOnCommandAndTable := by
  intro i s s' hparams
  obtain ⟨hw, hexec⟩ | ⟨hw, hexec⟩ := exec_cases i s
  all_goals rw [hexec]; rw [hparams] at hw
  · refine ⟨fun t ht => ⟨_, exec_admitted hw, ?_⟩, nofun⟩
    cases ht
    rw [after_res, after_res, hparams]
  · refine ⟨nofun, fun r hr => ?_⟩
    cases hr
    exact exec_refused hw

theorem exec_ne_fault (i : Instr) (s : State) (f : Fault) : exec i s ≠ .fault f := by
  obtain ⟨-, h⟩ | ⟨-, h⟩ := exec_cases i s <;> rw [h] <;> exact nofun

/-- Settles O42: a step that runs a command faults only where `exec` does, which is nowhere. -/
theorem stepNeverFaults : Obligations.StepNeverFaults := by
  intro s f
  obtain ⟨-, h⟩ | ⟨c, rest, i, -, -, h⟩ | ⟨c, rest, e, -, -, h⟩ := step_cases s <;> rw [h]
  · exact nofun
  · exact exec_ne_fault i _ f
  · exact nofun

/-! Several instances. -/

section System
variable {sys sys' : System} {i : Nat}

theorem stepAt_of_none (h : sys.blocks[i]? = none) : sys.stepAt i = .next sys := by
  rw [System.stepAt, h]

theorem stepAt_of_step {s t : State} (h : sys.blocks[i]? = some s) (hs : step s = .next t) :
    sys.stepAt i = .next ⟨sys.blocks.set i t⟩ := by
  rw [System.stepAt, h]
  simp only [hs]

/-- Everything a step of block `i` that gives a next state can have done. -/
theorem stepAt_next (h : sys.stepAt i = .next sys') :
    (sys.blocks[i]? = none ∧ sys' = sys) ∨
    (∃ s t, sys.blocks[i]? = some s ∧ step s = .next t ∧ sys' = ⟨sys.blocks.set i t⟩) := by
  unfold System.stepAt at h
  split at h
  · next hnone =>
    cases h
    exact .inl ⟨hnone, rfl⟩
  · next s hsome =>
    split at h <;> cases h
    next t hs => exact .inr ⟨s, t, hsome, hs, rfl⟩

/-- A step of block `i` reads that block alone and writes it alone: in every system with the
same block `i` it puts the same state in its place (rules R51, R131). -/
theorem stepAt_local (h : sys.stepAt i = .next sys') :
    ∃ t, ∀ other : System, other.blocks[i]? = sys.blocks[i]? →
      other.stepAt i = .next ⟨other.blocks.set i t⟩ := by
  obtain ⟨hnone, -⟩ | ⟨s, t, hsome, hs, -⟩ := stepAt_next h
  · refine ⟨State.reset, fun other hother => ?_⟩
    have hother := hother.trans hnone
    rw [stepAt_of_none hother, List.set_eq_of_length_le (List.getElem?_eq_none_iff.1 hother)]
  · exact ⟨t, fun other hother => stepAt_of_step (hother.trans hsome) hs⟩

theorem stepAt_other {j : Nat} (hij : i ≠ j) (h : sys.stepAt i = .next sys') :
    sys'.blocks[j]? = sys.blocks[j]? := by
  obtain ⟨t, ht⟩ := stepAt_local h
  rw [ht sys rfl] at h
  cases h
  exact List.getElem?_set_ne hij

theorem stepAt_comm {j : Nat} {a b : System} (hij : i ≠ j) (ha : sys.stepAt i = .next a)
    (hb : sys.stepAt j = .next b) : ∃ c, a.stepAt j = .next c ∧ b.stepAt i = .next c := by
  have haj := stepAt_other hij ha
  have hbi := stepAt_other hij.symm hb
  obtain ⟨t, ht⟩ := stepAt_local ha
  obtain ⟨u, hu⟩ := stepAt_local hb
  refine ⟨_, hu a haj, ?_⟩
  rw [ht b hbi]
  rw [ht sys rfl] at ha
  rw [hu sys rfl] at hb
  cases ha
  cases hb
  rw [List.set_comm _ _ hij]

theorem stepAt_sharesTable {p : Params} (hp : sys.SharesTable p) (h : sys.stepAt i = .next sys') :
    sys'.SharesTable p := by
  obtain ⟨-, rfl⟩ | ⟨s, t, hsome, hs, rfl⟩ := stepAt_next h
  · exact hp
  · intro u hu
    obtain hold | rfl := List.mem_or_eq_of_mem_set hu
    · exact hp u hold
    · exact (step_params hs).trans (hp s (List.mem_of_getElem? hsome))

end System

/-- Settles O45: a step of a block reads and writes that block alone, and keeps its
parameters. -/
theorem blocksAreIndependent : Obligations.BlocksAreIndependent :=
  ⟨fun _ _ _ _ => stepAt_other, fun _ _ _ _ _ => stepAt_comm, fun _ _ _ _ => stepAt_sharesTable⟩

end Sys2Proof.Machine

/-! PROOFS. The family `30_encoding`: the form of ENCODE's output (rule R66), the codes of the
classifier and of the status kinds (rules R63, R64), the numeric fields (rule R67), and the elements
of the textual form (rule R70). -/

namespace Sys2Proof.Machine

/-! The form of ENCODE's output. -/

section EncText
variable (p : Params)

/-- A value of 16 bits is at most 65535, so its three digits form a triplet (rules R65, R91). -/
theorem isTriplet_of_pair (b0 b1 : Byte) :
    IsTriplet p (p.P ((b0.toNat * 256 + b1.toNat) / 48 / 48))
      (p.P ((b0.toNat * 256 + b1.toNat) / 48 % 48)) (p.P ((b0.toNat * 256 + b1.toNat) % 48)) := by
  have := b0.isLt
  have := b1.isLt
  exact ⟨_, _, _, by omega, by omega, by omega, rfl, rfl, rfl, by omega⟩

theorem encodedText_encText (xs : List Byte) : EncodedText p (encText p xs) := by
  induction xs using pairs_induction with
  | nil => exact .nothing
  | tail b =>
    have := b.isLt
    exact .padding _ _ (by omega) (by omega)
  | pair b0 b1 xs ih => exact .triplet _ _ _ _ (isTriplet_of_pair p b0 b1) ih

/-- No alphabet code point is whitespace (W4 of rule R85), and the text holds no others. -/
theorem encText_not_whitespace (xs : List Byte) {c : CodePoint} (hc : c ∈ encText p xs) :
    c ∉ Config.whitespaceSet := by
  intro hw
  obtain ⟨hprimary, hpadding⟩ := params_w4 p c hw
  obtain h | h := encText_mem p xs c hc
  · exact hprimary h
  · exact hpadding h

end EncText

/-- Settles O9: an admitted ENCODE outputs the text of its input, which has the form of triplets and
at most one padding pair by induction on the pairs of bytes. -/
theorem encodeOutputForm : Obligations.EncodeOutputForm := by
  intro s input h
  obtain ⟨_, _, -, -, -, -, hpair⟩ := encText_group s.params input
  exact ⟨encText s.params input, _, exec_encode_admitted h, rfl, encodedText_encText _ _, hpair,
    fun c => encText_not_whitespace _ _, encText_length _ _⟩

/-! The codes of the classifier. -/

theorem padding_val_toNat (n : Nibble) : (Class.padding n).val.toNat = n.toNat :=
  BitVec.toNat_setWidth_of_le (by decide)

/-- Each of the four class codes is the code of a class (rule R63). -/
theorem exists_cls_eq (b : BitVec 2) : ∃ k : Machine.Class, k.cls = b := by
  have hcodes : ∀ b : BitVec 2, b = 0b00 ∨ b = 0b01 ∨ b = 0b10 ∨ b = 0b11 := by decide
  obtain rfl | rfl | rfl | rfl := hcodes b
  · exact ⟨.whitespace, rfl⟩
  · exact ⟨.padding 0, rfl⟩
  · exact ⟨.primary 0, rfl⟩
  · exact ⟨.invalid, rfl⟩

/-- Settles O18: the codes are those of the table, and a code point classified as Primary is `P(d)`
of a legal digit. -/
theorem classCodeTable : Obligations.ClassCodeTable := by
  refine ⟨⟨rfl, rfl⟩, fun n => ⟨rfl, padding_val_toNat n⟩, fun d => ⟨rfl, rfl⟩, ⟨rfl, rfl⟩,
    exists_cls_eq, fun p c d h => ?_⟩
  obtain ⟨hd, -⟩ := (classify_eq_primary p).1 h
  omega

/-! The numeric fields. -/

/-- Settles O21: each field's value, where the bounds on the operands keep it within the field's
width. -/
theorem fieldAssemblyIsExact : Obligations.FieldAssemblyIsExact := by
  refine ⟨pairValue_toNat, fun v => ⟨lowDigit_toNat v, quotient_toNat v⟩, fun v => ?_,
    fun d0 d1 d2 h0 h1 h2 => ?_, fun v hv => ?_,
    fun b => ⟨highNibble_toNat b, lowNibble_toNat b⟩, padByte_toNat⟩
  · rw [midDigit_toNat, highDigit_toNat, quotient_toNat]
    exact ⟨rfl, rfl⟩
  · have hvalue := tripletValue_toNat (d0 := d0) (d1 := d1) (d2 := d2)
      (by omega) (by omega) (by omega)
    exact ⟨hvalue, by omega⟩
  · have hhigh := highByte_toNat v
    exact ⟨by omega, lowByte_toNat v⟩

/-! The codes of the status kinds. -/

@[simp] theorem ofCode_code (k : Kind) : Kind.ofCode k.code = some k := by
  cases k <;> rfl

/-- The codes 5 to 7 are reserved (rules R64, R68). -/
theorem ofCode_reserved {b : BitVec 3} (h : 5 ≤ b.toNat) : Kind.ofCode b = none := by
  revert b
  decide

theorem readKind_of_code {s : State} {k : Kind} (h : s.res.kind = k.code) : s.readKind = .ok k := by
  rw [State.readKind, h, ofCode_code]

theorem readKind_of_reserved {s : State} (h : 5 ≤ s.res.kind.toNat) :
    s.readKind = .error .reservedKind := by
  rw [State.readKind, ofCode_reserved h]

/-- Settles O29: the read of KIND undoes the code of a kind, and no kind has a reserved code. -/
theorem statusCodeTable : Obligations.StatusCodeTable :=
  ⟨rfl, rfl, rfl, rfl, rfl, fun _ _ => readKind_of_code, fun _ => readKind_of_reserved⟩

/-! The elements of the textual form. -/

theorem mem_whitespaceSet_iff (c : CodePoint) :
    c ∈ Config.whitespaceSet ↔ c = 0x20#21 ∨ c = 0x09#21 ∨ c = 0x0A#21 ∨ c = 0x0D#21 := by
  simp [Config.whitespaceSet]

/-- Settles O47: `P(d)` is read from the ROM and `Q(n)` from the Padding run, the other elements are
literal, and a code point classifies as whitespace exactly when it is in the whitespace set. -/
theorem textFormElements : Obligations.TextFormElements :=
  ⟨fun p _ h => romRead_eq_P p h, fun p n => congrArg Except.ok (padRead_eq_Q p n), fun _ _ => rfl,
    fun _ => ⟨rfl, rfl, rfl, rfl⟩,
    fun p c => (classify_eq_whitespace p).trans (mem_whitespaceSet_iff c)⟩

end Sys2Proof.Machine

/-! PROOFS. The family `40_alphabet`: the class of every code point (rule R83), and the disjointness of
Primary, Padding and whitespace (rules R84, R85). -/

namespace Sys2Proof.Machine

/-- Settles O16: a member of one set is in neither of the others, so no test before its own takes it,
and no test takes a code point in none of them. -/
theorem classifyGivesClass : Obligations.ClassifyGivesClass := by
  intro p c
  refine ⟨classify_whitespace p, ?padding, ?primary, classify_invalid p⟩
  case padding =>
    rintro n hn rfl
    exact classify_Q p hn
  case primary =>
    rintro d hd rfl
    exact classify_P p hd

/-- The whitespace set lists no code point twice. -/
theorem whitespaceSet_nodup : Config.whitespaceSet.Nodup := by decide

/-- Settles O17: `P` and `Q` enumerate their alphabets without repetition (W1 to W3 of rule R85), W3
keeps the two apart, and W4 keeps both apart from whitespace. -/
theorem alphabetsAreDisjoint : Obligations.AlphabetsAreDisjoint := fun p =>
  ⟨isPrimary_iff p, fun _ hd _ hd' => P_injective p hd hd',
    isPadding_iff p, fun _ hn _ hn' => Q_injective p hn hn',
    rfl, whitespaceSet_nodup,
    fun _ ⟨hprimary, hpadding⟩ => not_isPadding_of_isPrimary p hprimary hpadding,
    params_w4 p⟩

end Sys2Proof.Machine

/-! PROOFS. The family `41_encoder`: the text that ENCODE gives (rules R90, R91, R93), and that DECODE
succeeds exactly on the texts whose working sequence is such a text, with the bytes encoded (rules R100
to R109). -/

namespace Sys2Proof.Machine

section Text
variable {p : Params} {b : List Byte} {input : List CodePoint}

/-- ENCODE's text loses nothing in Step 1 of DECODE (rule R86). -/
theorem workingSequence_encText (b : List Byte) :
    workingSequence (encText p b) = encText p b :=
  List.filter_eq_self.2 fun _ hc => decide_eq_true (encText_not_whitespace p b hc)

/-- A text that consists of whitespace has an empty working sequence. -/
theorem workingSequence_of_whitespace (h : ∀ c ∈ input, c ∈ Config.whitespaceSet) :
    workingSequence input = [] :=
  List.filter_eq_nil_iff.2 fun c hc => by simpa using h c hc

/-- DECODE of a text that is, up to whitespace, the text of some bytes gives those bytes: every triplet
of it passes, and no other bytes have this text. -/
theorem resultOf_decode_of_text (h : encText p b = workingSequence input) :
    resultOf p (.decode input) = okRecord 1 (.bytes b) := by
  obtain ⟨g, -, -, hgroup, hlen, hpass, -⟩ := encText_group p b
  rw [h] at hgroup
  obtain ⟨bytes, hdec, htext⟩ := decStages_pass p hgroup (by omega) hpass
  obtain rfl : bytes = b := encText_injective p (htext.trans h.symm)
  rw [resultOf, hdec]

/-- The bytes of a DECODE that ends with `OK` have the input without whitespace as their text. -/
theorem text_of_resultOf_decode (hk : (resultOf p (.decode input)).kind = 0)
    (hout : (resultOf p (.decode input)).out = .bytes b) :
    encText p b = workingSequence input := by
  obtain ⟨g, hg⟩ := exists_primaryGroup p (workingSequence input)
  obtain ⟨-, h⟩ | ⟨-, -, bytes, h, htext⟩ | ⟨-, _, _, _, -, h⟩ | ⟨-, _, _, -, h⟩ :=
    resultOf_decode_cases p hg <;> rw [h] at hk hout
  case inr.inl =>
    obtain rfl := Elems.bytes.inj hout
    exact htext
  all_goals exact absurd hk (by simp [failRecord, DecodeFail.kind, Kind.code])

/-- An admitted DECODE of a text of `b`, with or without whitespace, completes with `b`. -/
theorem exec_decode_of_text {s : State} (hadm : input.length ≤ s.params.maxDecCps)
    (h : encText s.params b = workingSequence input) :
    exec (.decode input) s = .next (s.after (okRecord 1 (.bytes b))) := by
  rw [exec_admitted (i := .decode input) (decide_eq_true hadm), resultOf_decode_of_text h]

end Text

/-- Settles O39: ENCODE's text is its own working sequence, so DECODE gives the bytes that have it as
their text. -/
theorem decodeAfterEncodeGivesInput : Obligations.DecodeAfterEncodeGivesInput := by
  intro s s' b hp hb
  refine ⟨_, encText s.params b, exec_encode_admitted hb, rfl, fun htxt => ?_⟩
  rw [← hp] at htxt ⊢
  exact exec_decode_of_text htxt (workingSequence_encText b).symm

/-- Settles O41: a DECODE that ends with `OK` gives the bytes whose text is the working sequence, and
that text is what ENCODE outputs for them. -/
theorem acceptedTextIsCanonical : Obligations.AcceptedTextIsCanonical := by
  intro s s' input t b hp hexec hk hout hb
  obtain ⟨-, rfl⟩ := exec_next hexec
  rw [← hp] at hk hout hb
  exact ⟨_, exec_encode_admitted hb, congrArg Elems.codePoints (text_of_resultOf_decode hk hout)⟩

/-- Settles O8: an admitted ENCODE outputs the text of its input, whose length and elements are those of
the pairs and the tail byte. -/
theorem encodeGivesDigitsAndTail : Obligations.EncodeGivesDigitsAndTail := fun s input h =>
  ⟨encText s.params input, exec_encode_admitted h, encText_length s.params input,
    encText_pair s.params input, encText_tail s.params input⟩

/-- Settles O10: the digits are the base-48 digits of a value below `65536 = 28 * 2304 + 1024`, and the
stages of ENCODE give a text for every input. -/
theorem encodeDigitBounds : Obligations.EncodeDigitBounds := by
  refine ⟨fun v => ?digits, fun p input f => ?stages⟩
  case digits =>
    have hv := v.isLt
    rw [lowDigit_toNat, midDigit_toNat, highDigit_toNat, quotient_toNat]
    omega
  case stages =>
    rw [encStages_eq]
    exact nofun

/-- Settles O48: the text of no bytes is empty, and so is the working sequence of whitespace. -/
theorem emptyInputSucceeds : Obligations.EmptyInputSucceeds :=
  ⟨fun _ => exec_encode_admitted (Nat.zero_le _),
    fun _ _ hadm hws => exec_decode_of_text hadm (workingSequence_of_whitespace hws).symm⟩

end Sys2Proof.Machine

/-! PROOFS. The family `42_decoder`: Steps 1 and 2 (rules R101, R102), the record of a DECODE for each
form of its primary group (rules R103 to R109), the order of the errors (rule R124), and the texts that
DECODE accepts (rule R65). -/

namespace Sys2Proof.Machine

/-! Steps 1 and 2. -/

/-- Settles O30: exactly the members of the whitespace set classify as whitespace. -/
theorem filterDropsWhitespaceOnly : Obligations.FilterDropsWhitespaceOnly :=
  fun p input => wsFilter_eq p input

/-- Settles O31: the last two elements are the ones tested, and each test is that of Padding. -/
theorem paddingPairDetection : Obligations.PaddingPairDetection :=
  ⟨fun p _ _ _ h0 h1 => padDetect_pair p h0 h1, fun p _ h => padDetect_none p h⟩

/-! The record of a DECODE, for each form of its primary group. -/

theorem exec_decode_completes {s : State} {input : List CodePoint}
    (h : input.length ≤ s.params.maxDecCps) :
    exec (.decode input) s = .next (s.after (resultOf s.params (.decode input))) :=
  exec_admitted (i := .decode input) (decide_eq_true h)

theorem resultOf_decode_of_fail {p : Params} {input : List CodePoint} {e : DecodeFail}
    (h : decStages p input = .error (.fail e)) : resultOf p (.decode input) = failRecord e := by
  rw [resultOf, h]

section Group
variable {p : Params} {input g : List CodePoint}

theorem resultOf_decode_of_length (hg : IsPrimaryGroup p (workingSequence input) g)
    (hl : g.length % 3 ≠ 0) :
    resultOf p (.decode input) = failRecord (.invalidLength g.length) :=
  resultOf_decode_of_fail (decStages_length p hg hl)

theorem resultOf_decode_of_badCharacter {t j : Nat} {c : CodePoint}
    (hg : IsPrimaryGroup p (workingSequence input) g) (hl : g.length % 3 = 0)
    (h : FirstBadCharacter p g t j c) :
    resultOf p (.decode input) = failRecord (.invalidCharacter c (3 * t + j)) := by
  obtain ⟨ht, hj, hpass, hbefore, hc, hbad⟩ := h
  refine resultOf_decode_of_fail (decStages_stop p hg hl ht hpass ?_)
  rintro sc rfl rfl
  exact decTurn_bad p hj hbefore hc hbad

theorem resultOf_decode_of_outOfRange {t v : Nat}
    (hg : IsPrimaryGroup p (workingSequence input) g) (hl : g.length % 3 = 0)
    (h : FirstOutOfRange p g t v) :
    resultOf p (.decode input) =
      failRecord (.valueOutOfRange (BitVec.ofNat 17 v) (3 * t)) := by
  obtain ⟨ht, hpass, d0, d1, d2, h0, h1, h2, e0, e1, e2, rfl, hv⟩ := h
  refine resultOf_decode_of_fail (decStages_stop p hg hl ht hpass ?_)
  rintro sc rfl rfl
  exact decTurn_range p h0 h1 h2 e0 e1 e2 hv

theorem resultOf_decode_of_passes (hg : IsPrimaryGroup p (workingSequence input) g)
    (hl : g.length % 3 = 0) (hpass : ∀ t < g.length / 3, TripletPasses p g t) :
    ∃ bytes, resultOf p (.decode input) = okRecord 1 (.bytes bytes) ∧
      encText p bytes = workingSequence input := by
  obtain ⟨bytes, hdec, htext⟩ := decStages_pass p hg hl hpass
  exact ⟨bytes, by rw [resultOf, hdec], htext⟩

/-- A value above 65535 with three digits below 48 is at most `47 * 2304 + 47 * 48 + 47`. -/
theorem outOfRange_bounds {t v : Nat} (h : FirstOutOfRange p g t v) :
    65536 ≤ v ∧ v ≤ 110591 := by
  obtain ⟨-, -, d0, d1, d2, h0, h1, h2, -, -, -, rfl, hv⟩ := h
  omega

end Group

/-- Settles O32: `LEN_CHECK` stands before the loop, and its failure ends the command. -/
theorem lengthIsCheckedFirst : Obligations.LengthIsCheckedFirst := by
  intro s input g hadm hg hl
  rw [exec_decode_completes hadm, resultOf_decode_of_length hg hl]
  rfl

/-- Settles O33: the loop passes the triplets before `t`, and its turn at `t` stops at element `j`; the
primary group is an initial part of the working sequence. -/
theorem firstBadCharacterIsReported : Obligations.FirstBadCharacterIsReported := by
  intro s input g t j c hadm hg hl h
  refine ⟨?record, ?index⟩
  case record =>
    rw [exec_decode_completes hadm, resultOf_decode_of_badCharacter hg hl h]
    rfl
  case index =>
    obtain ⟨ht, hj, -, -, hc, -⟩ := h
    obtain ⟨-, hinitial⟩ := primaryGroup_is_initial hg
    rw [hinitial _ (by omega), hc]

/-- Settles O34: the loop passes the triplets before `t`, and the range check of turn `t` fails. -/
theorem firstOutOfRangeIsReported : Obligations.FirstOutOfRangeIsReported := by
  intro s input g t v hadm hg hl h
  refine ⟨?_, outOfRange_bounds h⟩
  rw [exec_decode_completes hadm, resultOf_decode_of_outOfRange hg hl h]
  rfl

/-! The bytes of a success, read off the text that they have. -/

section Bytes
variable {p : Params} {xs : List Byte}

/-- The two bytes whose text is the triplet `P(d0) P(d1) P(d2)` (rules R91, R107). -/
theorem bytes_of_encText_triplet {t d0 d1 d2 : Nat} (ht : 2 * t + 1 < xs.length) (h0 : d0 < 48)
    (h1 : d1 < 48) (h2 : d2 < 48) (e0 : (encText p xs)[3 * t]? = some (p.P d0))
    (e1 : (encText p xs)[3 * t + 1]? = some (p.P d1))
    (e2 : (encText p xs)[3 * t + 2]? = some (p.P d2)) :
    xs[2 * t]? = some (BitVec.ofNat 8 ((d0 * 2304 + d1 * 48 + d2) / 256)) ∧
    xs[2 * t + 1]? = some (BitVec.ofNat 8 ((d0 * 2304 + d1 * 48 + d2) % 256)) := by
  obtain ⟨b0, hb0⟩ : ∃ b, xs[2 * t]? = some b := ⟨_, List.getElem?_eq_getElem (by omega)⟩
  obtain ⟨b1, hb1⟩ : ∃ b, xs[2 * t + 1]? = some b := ⟨_, List.getElem?_eq_getElem ht⟩
  obtain ⟨q0, q1, q2⟩ := encText_pair p xs t b0 b1 hb0 hb1
  have := b0.isLt
  have := b1.isLt
  have h0 := P_injective p h0 (by omega) (Option.some.inj (e0.symm.trans q0))
  have h1 := P_injective p h1 (by omega) (Option.some.inj (e1.symm.trans q1))
  have h2 := P_injective p h2 (by omega) (Option.some.inj (e2.symm.trans q2))
  have hvalue : d0 * 2304 + d1 * 48 + d2 = b0.toNat * 256 + b1.toNat := by omega
  rw [hb0, hb1, hvalue, show (b0.toNat * 256 + b1.toNat) / 256 = b0.toNat by omega,
    show (b0.toNat * 256 + b1.toNat) % 256 = b1.toNat by omega]
  simp only [BitVec.ofNat_toNat, BitVec.setWidth_eq, and_self]

/-- The last byte, whose text is the padding pair `Q(n0) Q(n1)` (rules R93, R108). -/
theorem byte_of_encText_pair {n0 n1 : Nat} (hodd : xs.length % 2 = 1) (h0 : n0 < 16) (h1 : n1 < 16)
    (e0 : (encText p xs)[3 * (xs.length / 2)]? = some (p.Q n0))
    (e1 : (encText p xs)[3 * (xs.length / 2) + 1]? = some (p.Q n1)) :
    xs[xs.length - 1]? = some (BitVec.ofNat 8 (n0 * 16 + n1)) := by
  obtain ⟨b, hb⟩ : ∃ b, xs[xs.length - 1]? = some b := ⟨_, List.getElem?_eq_getElem (by omega)⟩
  obtain ⟨q0, q1⟩ := encText_tail p xs b hodd hb
  have := b.isLt
  have h0 := Q_injective p h0 (by omega) (Option.some.inj (e0.symm.trans q0))
  have h1 := Q_injective p h1 (by omega) (Option.some.inj (e1.symm.trans q1))
  rw [hb, show n0 * 16 + n1 = b.toNat by omega, BitVec.ofNat_toNat, BitVec.setWidth_eq]

/-- What follows the primary group is the padding pair, or nothing (rule R102). -/
theorem length_after_primaryGroup {g pair : List CodePoint}
    (hg : IsPrimaryGroup p (g ++ pair) g) : pair.length = 0 ∨ pair.length = 2 := by
  obtain ⟨c0, c1, h, -, -⟩ | ⟨h, -⟩ := hg
  · exact .inr (congrArg List.length (List.append_cancel_left h))
  · exact .inl (congrArg List.length (List.self_eq_append_right.1 h))

end Bytes

/-- Settles O35: the output is the byte sequence whose text is the working sequence, and a text
determines its length and its bytes. -/
theorem decodeSuccessOutput : Obligations.DecodeSuccessOutput := by
  intro s input g pair hadm hw hg hl hpass
  obtain ⟨bytes, hres, htext⟩ := resultOf_decode_of_passes hg hl hpass
  rw [hw] at hg htext
  have hpair := length_after_primaryGroup hg
  have hlen : 3 * (bytes.length / 2) + 2 * (bytes.length % 2) = g.length + pair.length := by
    rw [← encText_length s.params, htext, List.length_append]
  refine ⟨bytes, ?record, by omega, ?triplets, ?padding⟩
  case record =>
    rw [exec_decode_completes hadm, hres]
    rfl
  case triplets =>
    intro t d0 d1 d2 ht h0 h1 h2 e0 e1 e2
    refine bytes_of_encText_triplet (p := s.params) (by omega) h0 h1 h2 ?_ ?_ ?_
    all_goals rwa [htext, List.getElem?_append_left (by omega)]
  case padding =>
    rintro n0 n1 h0 h1 rfl
    simp only [List.length_cons, List.length_nil] at hlen
    rw [show 2 * (g.length / 3) = bytes.length - 1 by omega]
    have hgroup : 3 * (bytes.length / 2) = g.length := by omega
    refine byte_of_encText_pair (p := s.params) (by omega) h0 h1 ?_ ?_
    all_goals simp [htext, hgroup]

/-! The order of the errors. -/

/-- Where one of four conditions holds with its kind, and each implies its kind, each kind is
equivalent to its condition: different kinds have different codes (rule R64). -/
theorem kind_iff_of_cases {k : BitVec 3} {hasLength hasCharacter hasRange passes : Prop}
    (hcases : (k = 2 ∧ hasLength) ∨ (k = 0 ∧ passes) ∨ (k = 1 ∧ hasCharacter) ∨ (k = 3 ∧ hasRange))
    (hlength : hasLength → k = 2) (hcharacter : hasCharacter → k = 1) (hrange : hasRange → k = 3)
    (hpasses : passes → k = 0) :
    (k = 2 ↔ hasLength) ∧ (k = 1 ↔ hasCharacter) ∧ (k = 3 ↔ hasRange) ∧ (k = 0 ↔ passes) := by
  obtain ⟨rfl, h⟩ | ⟨rfl, h⟩ | ⟨rfl, h⟩ | ⟨rfl, h⟩ := hcases <;> simp_all

/-- Settles O36: every primary group has one of the four forms, and each form determines the record, so
no two of them hold of one group. -/
theorem errorPriority : Obligations.ErrorPriority := by
  intro s input g hadm hg
  refine ⟨_, exec_decode_completes hadm, kind_iff_of_cases ?cases ?length ?character ?range ?passes⟩
  case cases =>
    rw [after_res]
    obtain ⟨hl, h⟩ | ⟨hl, hpass, bytes, h, -⟩ | ⟨hl, t, j, c, hbad, h⟩ | ⟨hl, t, v, hrange, h⟩ :=
      resultOf_decode_cases s.params hg <;> rw [h]
    · exact .inl ⟨rfl, hl⟩
    · exact .inr (.inl ⟨rfl, hl, hpass⟩)
    · exact .inr (.inr (.inl ⟨rfl, hl, t, j, c, hbad, rfl, rfl⟩))
    · obtain ⟨-, hv⟩ := outOfRange_bounds hrange
      have hvalue : (BitVec.ofNat 17 v).toNat = v := by
        rw [BitVec.toNat_ofNat]
        omega
      exact .inr (.inr (.inr ⟨rfl, hl, t, v, hrange, hvalue, rfl⟩))
  case length =>
    intro hl
    rw [after_res, resultOf_decode_of_length hg hl]
    rfl
  case character =>
    rintro ⟨hl, t, j, c, hbad, -⟩
    rw [after_res, resultOf_decode_of_badCharacter hg hl hbad]
    rfl
  case range =>
    rintro ⟨hl, t, v, hrange, -⟩
    rw [after_res, resultOf_decode_of_outOfRange hg hl hrange]
    rfl
  case passes =>
    rintro ⟨hl, hpass⟩
    obtain ⟨bytes, h, -⟩ := resultOf_decode_of_passes hg hl hpass
    rw [after_res, h]
    rfl

/-! The texts that DECODE accepts. -/

section Accepted
variable {p : Params}

/-- A triplet is the text of two bytes (rules R65, R91). -/
theorem exists_bytes_of_isTriplet {c0 c1 c2 : CodePoint} (h : IsTriplet p c0 c1 c2) :
    ∃ b0 b1, encText p [b0, b1] = [c0, c1, c2] := by
  obtain ⟨d0, d1, d2, h0, h1, h2, rfl, rfl, rfl, hv⟩ := h
  exact ⟨_, _, encText_of_value p h1 h2 hv (digits_value h0 h1 h2)⟩

/-- A padding pair is the text of one byte (rules R65, R93). -/
theorem encText_of_nibbles {n0 n1 : Nat} (h0 : n0 < 16) (h1 : n1 < 16) :
    encText p [BitVec.ofNat 8 (n0 * 16 + n1)] = [p.Q n0, p.Q n1] := by
  have hb : (BitVec.ofNat 8 (n0 * 16 + n1)).toNat = n0 * 16 + n1 := by
    rw [BitVec.toNat_ofNat]
    omega
  simp only [encText, hb]
  rw [show (n0 * 16 + n1) / 16 = n0 by omega, show (n0 * 16 + n1) % 16 = n1 by omega]

/-- The texts of rule R65 are those of byte sequences. -/
theorem encodedText_iff {w : List CodePoint} : EncodedText p w ↔ ∃ b, encText p b = w := by
  constructor
  · intro h
    induction h with
    | nothing => exact ⟨[], rfl⟩
    | padding n0 n1 h0 h1 => exact ⟨_, encText_of_nibbles h0 h1⟩
    | triplet c0 c1 c2 rest htriplet _ ih =>
      obtain ⟨b0, b1, hpair⟩ := exists_bytes_of_isTriplet htriplet
      obtain ⟨b, rfl⟩ := ih
      refine ⟨[b0, b1] ++ b, ?_⟩
      rw [encText_append p (xs := [b0, b1]) b (by simp), hpair]
      rfl
  · rintro ⟨b, rfl⟩
    exact encodedText_encText p b

end Accepted

/-- Settles O38: a DECODE that ends with `OK` gives bytes whose text is the working sequence, and a
working sequence that is a text decodes to its bytes; by induction on the text, those texts are the
forms of rule R65. -/
theorem acceptedTextsAreEncodings : Obligations.AcceptedTextsAreEncodings := by
  intro s input hadm
  refine ⟨_, exec_decode_completes hadm, ?_⟩
  rw [after_res, encodedText_iff]
  constructor
  · intro hk
    obtain ⟨hlegal, -, hdir⟩ := exec_next_legal (exec_decode_completes hadm)
    obtain ⟨b, hout⟩ := hlegal.decode_out hdir
    exact ⟨b, text_of_resultOf_decode hk hout⟩
  · rintro ⟨b, htext⟩
    rw [resultOf_decode_of_text htext]
    rfl

/-! Whitespace. -/

section Whitespace
variable {t u : List CodePoint}

theorem workingSequence_of_insertsWhitespace (h : InsertsWhitespace t u) :
    workingSequence u = workingSequence t := by
  induction h with
  | nil => rfl
  | keep c t u _ ih =>
    unfold workingSequence at ih ⊢
    rw [List.filter_cons, List.filter_cons, ih]
  | insert c hc t u _ ih => exact (List.filter_cons_of_neg (by simpa using hc)).trans ih

theorem length_le_of_insertsWhitespace (h : InsertsWhitespace t u) : t.length ≤ u.length := by
  induction h with
  | nil => exact Nat.le_refl _
  | keep c t u _ ih => exact Nat.succ_le_succ ih
  | insert c _ t u _ ih => exact Nat.le_succ_of_le ih

/-- The stages after Step 1 see the working sequence alone (rule R101). -/
theorem resultOf_decode_congr {p : Params} (h : workingSequence u = workingSequence t) :
    resultOf p (.decode u) = resultOf p (.decode t) := by
  have hfront : decFront p u = decFront p t := by
    rw [decFront, decFront, wsFilter_eq, wsFilter_eq, h]
  rw [resultOf, resultOf, decStages, decStages, hfront]

end Whitespace

/-- Settles O40: both inputs have the same working sequence, by induction on the insertions, and the
shorter one is admitted too. -/
theorem whitespaceChangesNothing : Obligations.WhitespaceChangesNothing := by
  intro s t u h hu
  have ht := (length_le_of_insertsWhitespace h).trans hu
  refine ⟨_, exec_decode_completes ht, ?_⟩
  rw [exec_decode_completes hu, resultOf_decode_congr (workingSequence_of_insertsWhitespace h)]

end Sys2Proof.Machine

/-! PROOFS. The family `60_exceptions`: ENCODE raises no error (rule R123). -/

namespace Sys2Proof.Machine

/-- Settles O12: a completed ENCODE leaves the `OK` record of its text, and a refused one was not
admitted, for an admitted one completes. -/
theorem encodeRaisesNoError : Obligations.EncodeRaisesNoError := by
  refine fun s input => ⟨fun t h => ?ok, ⟨fun h => Nat.lt_of_not_le fun hadm => ?refused,
    exec_encode_refused⟩, fun hadm => ⟨_, exec_encode_admitted hadm⟩⟩
  case ok =>
    obtain ⟨-, rfl⟩ := exec_next h
    rfl
  case refused =>
    rw [exec_encode_admitted hadm] at h
    cases h

end Sys2Proof.Machine

/-! PROOFS. The family `70_reset_and_hazards`: the first command after reset (rule R143). -/

namespace Sys2Proof.Machine

/-- Settles O4: after reset the issued command is the whole queue, so taking it gives the state after
reset back, and the command word decodes to the command it encodes. -/
theorem firstCommandRunsRightAfterReset : Obligations.FirstCommandRunsRightAfterReset := by
  intro p i
  have hqueue : ((State.resetOf p).issue (encodeCommand i)).pending = [encodeCommand i] := by simp
  exact step_of_decoded hqueue (decodeCommand_encodeCommand i)

end Sys2Proof.Machine
